-- ==== Sys2Proof/Word.lean ====
section
/-! DEFINITION. The Word of rules R4 and R5 and the register number of rule R10. A Word is a bit
pattern; addition on it is `BitVec` addition, which is addition modulo 65536 (rule R5), and its
signed reading is `BitVec.toInt`. -/

namespace Sys2Proof

/-- Rule R5: a 16-bit value, the only unit of memory, register storage and instructions. -/
abbrev Word := BitVec 16

/-- Rule R10: the 3-bit register field, used directly as an index; it is in range by its type. -/
abbrev RegIx := BitVec 3

end Sys2Proof
end

