-- ==== Sys2Proof/Config.lean ====
section
/-! DEFINITION. What is fixed for the machine and never changes while it runs (rule R3). The spec
leaves no value free (rule R85: no step depends on a chosen value), so nothing here is opaque. The
parameters that the spec itself decided where its source is silent (COND's bit positions, the PC
increment, the trap table's base, the link register) stand beside their use, in
`Sys2Proof/Machine/Ops.lean`, `Operands.lean` and `Flags.lean`. -/

namespace Sys2Proof

/-- Rule R3 `MEM_WORDS`, rule R20: the number of addressable Words. -/
abbrev Config.memWords : Nat := 65536

/-- Rule R27: the Word every address holds at reset, hence what an unlisted address reads as. -/
abbrev Config.resetWord : Word := 0x0000

/-- Rule R25: the Word every general register holds at reset. -/
abbrev Config.resetReg : Word := 0x0000

/-- Rule R26, rule R3 `RESET_PC`. -/
abbrev Config.resetPc : Word := 0x0000

/-- Rule R26, decision D4 (UNVERIFIED, assumption 7): no flag is set at reset. -/
abbrev Config.resetCond : Word := 0x0000

end Sys2Proof
end

