-- ==== Sys2Proof/Syntax.lean ====
section
/-! DEFINITION. The decoded instruction of rule R61: one constructor per row of
spec/opcode_table.json, named by the row's mnemonic, carrying exactly the fields of its format as raw
field values. Extension is applied at execution (rule R66). -/

namespace Sys2Proof

/-- Rule R61. The docstring of each constructor gives the source's name, the selector and the rule of
its meaning. Every field is in range by its type. -/
inductive Instr where
  /-- Branch, selector 0000, rule R120: the three mask bits and the 9-bit offset. -/
  | br (n z p : Bool) (off9 : BitVec 9)
  /-- Add, selector 0001 with bit 5 = 0, rule R100. -/
  | add (dr sr1 sr2 : RegIx)
  /-- AddImmediate, selector 0001 with bit 5 = 1, rule R101. -/
  | addi (dr sr1 : RegIx) (imm5 : BitVec 5)
  /-- Load, selector 0010, rule R110. -/
  | ld (dr : RegIx) (off9 : BitVec 9)
  /-- Store, selector 0011, rule R111. -/
  | st (sr : RegIx) (off9 : BitVec 9)
  /-- JumpRegisterOffset, selector 0100 with bit 11 = 1, rule R122. -/
  | jsr (off11 : BitVec 11)
  /-- JumpRegisterBase, selector 0100 with bit 11 = 0, rule R123. -/
  | jsrr (base : RegIx)
  /-- And, selector 0101 with bit 5 = 0, rule R102. -/
  | and (dr sr1 sr2 : RegIx)
  /-- AndImmediate, selector 0101 with bit 5 = 1, rule R103. -/
  | andi (dr sr1 : RegIx) (imm5 : BitVec 5)
  /-- LoadRegister, selector 0110, rule R114. -/
  | ldr (dr base : RegIx) (off6 : BitVec 6)
  /-- StoreRegister, selector 0111, rule R115. -/
  | str (sr base : RegIx) (off6 : BitVec 6)
  /-- Unused, selector 1000, rule R131: a placeholder without fields. -/
  | res8
  /-- Not, selector 1001, rule R104. -/
  | not (dr sr : RegIx)
  /-- LoadIndirect, selector 1010, rule R112. -/
  | ldi (dr : RegIx) (off9 : BitVec 9)
  /-- StoreIndirect, selector 1011, rule R113. -/
  | sti (sr : RegIx) (off9 : BitVec 9)
  /-- Jump, selector 1100, rule R121. -/
  | jmp (base : RegIx)
  /-- Reserved, selector 1101, rule R132: a placeholder without fields. -/
  | resd
  /-- LoadEffectiveAddress, selector 1110, rule R116. -/
  | lea (dr : RegIx) (off9 : BitVec 9)
  /-- Trap, selector 1111, rule R130. -/
  | trap (vec8 : BitVec 8)
  deriving DecidableEq, Repr

end Sys2Proof
end

