-- ==== Sys2Proof/WellFormed.lean ====
section
/-! DEFINITION. Which instructions are defined (rules R63 and R89), and which source lines an assembler
accepts (rules R66, R68, R69). A decoded instruction's operand ranges hold by the types of its fields
(rule R10, "in-range by construction"), so no range is left to check on `Instr`; the ranges are checked
where numbers are written by hand, on a source line. -/

namespace Sys2Proof

/-- Rules R63 and R89: every form but the two placeholders is a defined instruction. -/
def Instr.isDefined : Instr → Bool
  | .res8 | .resd => false
  | .br _ _ _ _ | .add _ _ _ | .addi _ _ _ | .ld _ _ | .st _ _ | .jsr _ | .jsrr _ | .and _ _ _
  | .andi _ _ _ | .ldr _ _ _ | .str _ _ _ | .not _ _ | .ldi _ _ | .sti _ _ | .jmp _ | .lea _ _
  | .trap _ => true

/-- Rule R68: one line of the spec's own example language, with the numbers as they are written.
A register is the digit of its name, an immediate or offset a signed decimal number. -/
inductive AsmLine where
  | add (dr sr1 sr2 : Nat)
  | addi (dr sr1 : Nat) (imm : Int)
  | and (dr sr1 sr2 : Nat)
  | andi (dr sr1 : Nat) (imm : Int)
  | not (dr sr : Nat)
  | ld (dr : Nat) (off : Int)
  | st (sr : Nat) (off : Int)
  | ldi (dr : Nat) (off : Int)
  | sti (sr : Nat) (off : Int)
  | ldr (dr base : Nat) (off : Int)
  | str (sr base : Nat) (off : Int)
  | lea (dr : Nat) (off : Int)
  /-- The letters written after `BR`; rule R69 reads no letter as all three. -/
  | br (n z p : Bool) (off : Int)
  | jmp (base : Nat)
  | jsr (off : Int)
  | jsrr (base : Nat)
  | trap (vec : Nat)
  /-- `.FILL xNNNN`: the Word itself. -/
  | fill (value : Nat)
  /-- Rule R69: `JMP R7`. -/
  | ret
  /-- Rule R69: the Word 0x0000. -/
  | nop
  deriving DecidableEq, Repr

/-- Rule R68: registers are written `R0` to `R7`. -/
def AsmLine.regOk (k : Nat) : Bool := k < 8

/-- Rule R66: the range of a signed field of `n` bits. -/
def AsmLine.signedOk (n : Nat) (v : Int) : Bool := -(2 ^ (n - 1)) ≤ v && v < 2 ^ (n - 1)

/-- Rule R68: every operand lies in its field's range. -/
def AsmLine.wellFormed : AsmLine → Bool
  | .add d a b | .and d a b => regOk d && regOk a && regOk b
  | .addi d a v | .andi d a v => regOk d && regOk a && signedOk 5 v
  | .not d a => regOk d && regOk a
  | .ld r v | .st r v | .ldi r v | .sti r v | .lea r v => regOk r && signedOk 9 v
  | .ldr r b v | .str r b v => regOk r && regOk b && signedOk 6 v
  | .br _ _ _ v => signedOk 9 v
  | .jmp b | .jsrr b => regOk b
  | .jsr v => signedOk 11 v
  | .trap v => v < 256
  | .fill v => v < 65536
  | .ret | .nop => true

end Sys2Proof
end

