-- ==== Sys2Proof/Decode.lean ====
section
/-! DEFINITION. The decoder of rules R50 to R67, total on Words (rule R51: "Decoding never fails"), so
there is no Word it rejects; then the encoder, the opcode map of rule R62 and the assembler of rules
R68 and R69. -/

namespace Sys2Proof

/-- Rule R4: the single bit `v[k]`. -/
def bit (w : Word) (k : Nat) : Bool := w.getLsbD k

/-- Rule R4: the field `v[lo + n - 1 : lo]` of `n` bits. -/
def field (w : Word) (lo n : Nat) : BitVec n := w.extractLsb' lo n

/-- The register field at bits 11 to 9: DR, or SR of the stores (rules R53 to R57). -/
def regHi (w : Word) : RegIx := field w 9 3

/-- The register field at bits 8 to 6: SR1, NOT's SR or BaseR (rules R53 to R59). -/
def regMid (w : Word) : RegIx := field w 6 3

/-- The register field at bits 2 to 0: SR2 (rule R53). -/
def regLo (w : Word) : RegIx := field w 0 3

/-- Rules R51 and R62: dispatch on bits 15 to 12, with bit 5 for selectors 0001 and 0101 and bit 11
for selector 0100. Bits a format calls ignored are not looked at (rule R64). UNVERIFIED: where the source
gives no place for a field, the mode bit or the vector, decisions D5, D7, D11 and D21 (assumptions 8, 10, 13 and
22). -/
def decode (w : Word) : Instr :=
  match bit w 15, bit w 14, bit w 13, bit w 12 with
  | false, false, false, false => .br (bit w 11) (bit w 10) (bit w 9) (field w 0 9)
  | false, false, false, true =>
    if bit w 5 then .addi (regHi w) (regMid w) (field w 0 5) else .add (regHi w) (regMid w) (regLo w)
  | false, false, true, false => .ld (regHi w) (field w 0 9)
  | false, false, true, true => .st (regHi w) (field w 0 9)
  | false, true, false, false => if bit w 11 then .jsr (field w 0 11) else .jsrr (regMid w)
  | false, true, false, true =>
    if bit w 5 then .andi (regHi w) (regMid w) (field w 0 5) else .and (regHi w) (regMid w) (regLo w)
  | false, true, true, false => .ldr (regHi w) (regMid w) (field w 0 6)
  | false, true, true, true => .str (regHi w) (regMid w) (field w 0 6)
  | true, false, false, false => .res8
  | true, false, false, true => .not (regHi w) (regMid w)
  | true, false, true, false => .ldi (regHi w) (field w 0 9)
  | true, false, true, true => .sti (regHi w) (field w 0 9)
  | true, true, false, false => .jmp (regMid w)
  | true, true, false, true => .resd
  | true, true, true, false => .lea (regHi w) (field w 0 9)
  | true, true, true, true => .trap (field w 0 8)

/-- Rule R50: the decoder's instruction for one whole instruction given as a number. An instruction is
one Word, so a longer one is none of this hardware's (DESIGN CHOICE, assumption 24). -/
def decodeTableWord (nbits w : Nat) : Option Instr :=
  if nbits ≤ 16 then some (decode (BitVec.ofNat 16 (w % 2 ^ nbits))) else none

/-- A field put at bit `lo` of an otherwise zero Word. -/
def place {n : Nat} (f : BitVec n) (lo : Nat) : Word := f.setWidth 16 <<< lo

/-- One bit put at bit `lo` of an otherwise zero Word. -/
def placeBit (b : Bool) (lo : Nat) : Word := place (BitVec.ofBool b) lo

/-- Rule R68, column "Word emitted": the ignored bits are emitted as the table there shows, 111111 in
NOT and zeros elsewhere. The placeholders have no line there; they get zeros (DESIGN CHOICE, assumption 13). -/
def encode : Instr → Word
  | .br n z p o => 0b0000000000000000 ||| placeBit n 11 ||| placeBit z 10 ||| placeBit p 9 ||| place o 0
  | .add d a b => 0b0001000000000000 ||| place d 9 ||| place a 6 ||| place b 0
  | .addi d a v => 0b0001000000100000 ||| place d 9 ||| place a 6 ||| place v 0
  | .ld d o => 0b0010000000000000 ||| place d 9 ||| place o 0
  | .st r o => 0b0011000000000000 ||| place r 9 ||| place o 0
  | .jsr o => 0b0100100000000000 ||| place o 0
  | .jsrr b => 0b0100000000000000 ||| place b 6
  | .and d a b => 0b0101000000000000 ||| place d 9 ||| place a 6 ||| place b 0
  | .andi d a v => 0b0101000000100000 ||| place d 9 ||| place a 6 ||| place v 0
  | .ldr d b o => 0b0110000000000000 ||| place d 9 ||| place b 6 ||| place o 0
  | .str r b o => 0b0111000000000000 ||| place r 9 ||| place b 6 ||| place o 0
  | .res8 => 0b1000000000000000
  | .not d a => 0b1001000000111111 ||| place d 9 ||| place a 6
  | .ldi d o => 0b1010000000000000 ||| place d 9 ||| place o 0
  | .sti r o => 0b1011000000000000 ||| place r 9 ||| place o 0
  | .jmp b => 0b1100000000000000 ||| place b 6
  | .resd => 0b1101000000000000
  | .lea d o => 0b1110000000000000 ||| place d 9 ||| place o 0
  | .trap v => 0b1111000000000000 ||| place v 0

/-- One row of the opcode map of rule R62, with the bits rule R64 lists as ignored. -/
structure OpRow where
  mnemonic : String
  mask : Word
  pattern : Word
  ignored : Word
  deriving DecidableEq, Repr

/-- The row of rule R62 an instruction belongs to. -/
def Instr.row : Instr → OpRow
  | .br _ _ _ _ => ⟨"BR", 0xF000, 0x0000, 0x0000⟩
  | .add _ _ _ => ⟨"ADD", 0xF020, 0x1000, 0x0018⟩
  | .addi _ _ _ => ⟨"ADDI", 0xF020, 0x1020, 0x0000⟩
  | .ld _ _ => ⟨"LD", 0xF000, 0x2000, 0x0000⟩
  | .st _ _ => ⟨"ST", 0xF000, 0x3000, 0x0000⟩
  | .jsr _ => ⟨"JSR", 0xF800, 0x4800, 0x0000⟩
  | .jsrr _ => ⟨"JSRR", 0xF800, 0x4000, 0x063F⟩
  | .and _ _ _ => ⟨"AND", 0xF020, 0x5000, 0x0018⟩
  | .andi _ _ _ => ⟨"ANDI", 0xF020, 0x5020, 0x0000⟩
  | .ldr _ _ _ => ⟨"LDR", 0xF000, 0x6000, 0x0000⟩
  | .str _ _ _ => ⟨"STR", 0xF000, 0x7000, 0x0000⟩
  | .res8 => ⟨"RES8", 0xF000, 0x8000, 0x0FFF⟩
  | .not _ _ => ⟨"NOT", 0xF000, 0x9000, 0x003F⟩
  | .ldi _ _ => ⟨"LDI", 0xF000, 0xA000, 0x0000⟩
  | .sti _ _ => ⟨"STI", 0xF000, 0xB000, 0x0000⟩
  | .jmp _ => ⟨"JMP", 0xF000, 0xC000, 0x0E3F⟩
  | .resd => ⟨"RESD", 0xF000, 0xD000, 0x0FFF⟩
  | .lea _ _ => ⟨"LEA", 0xF000, 0xE000, 0x0000⟩
  | .trap _ => ⟨"TRAP", 0xF000, 0xF000, 0x0F00⟩

/-- Rule R62: the complete opcode map, 19 rows. -/
def opcodeMap : List OpRow :=
  [ (Instr.br false false false 0).row, (Instr.add 0 0 0).row, (Instr.addi 0 0 0).row,
    (Instr.ld 0 0).row, (Instr.st 0 0).row, (Instr.jsr 0).row, (Instr.jsrr 0).row,
    (Instr.and 0 0 0).row, (Instr.andi 0 0 0).row, (Instr.ldr 0 0 0).row, (Instr.str 0 0 0).row,
    Instr.res8.row, (Instr.not 0 0).row, (Instr.ldi 0 0).row, (Instr.sti 0 0).row,
    (Instr.jmp 0).row, Instr.resd.row, (Instr.lea 0 0).row, (Instr.trap 0).row ]

/-- Rule R62: a Word selects a row when its bits under the mask are the row's pattern. -/
def OpRow.selects (r : OpRow) (w : Word) : Bool := w &&& r.mask == r.pattern

/-- Rule R68: the register field of a register name. -/
def asmReg (k : Nat) : RegIx := BitVec.ofNat 3 k

/-- Rule R68: "the assembler stores its low `n` bits". -/
def asmSigned (n : Nat) (v : Int) : BitVec n := BitVec.ofInt n v

/-- Rules R68 and R69: the instruction or data Word a source line stands for. -/
def AsmLine.word : AsmLine → Word
  | .add d a b => encode (.add (asmReg d) (asmReg a) (asmReg b))
  | .addi d a v => encode (.addi (asmReg d) (asmReg a) (asmSigned 5 v))
  | .and d a b => encode (.and (asmReg d) (asmReg a) (asmReg b))
  | .andi d a v => encode (.andi (asmReg d) (asmReg a) (asmSigned 5 v))
  | .not d a => encode (.not (asmReg d) (asmReg a))
  | .ld d v => encode (.ld (asmReg d) (asmSigned 9 v))
  | .st r v => encode (.st (asmReg r) (asmSigned 9 v))
  | .ldi d v => encode (.ldi (asmReg d) (asmSigned 9 v))
  | .sti r v => encode (.sti (asmReg r) (asmSigned 9 v))
  | .ldr d b v => encode (.ldr (asmReg d) (asmReg b) (asmSigned 6 v))
  | .str r b v => encode (.str (asmReg r) (asmReg b) (asmSigned 6 v))
  | .lea d v => encode (.lea (asmReg d) (asmSigned 9 v))
  | .br n z p v =>
    if n || z || p then encode (.br n z p (asmSigned 9 v)) else encode (.br true true true (asmSigned 9 v))
  | .jmp b => encode (.jmp (asmReg b))
  | .jsr v => encode (.jsr (asmSigned 11 v))
  | .jsrr b => encode (.jsrr (asmReg b))
  | .trap v => encode (.trap (BitVec.ofNat 8 v))
  | .fill v => BitVec.ofNat 16 v
  | .ret => encode (.jmp 7)
  | .nop => 0x0000

/-- Rule R68: a line with an operand outside its range assembles to nothing. -/
def assemble (l : AsmLine) : Option Word := if l.wellFormed then some l.word else none

end Sys2Proof
end

