-- ==== Sys2Proof/Machine/State.lean ====
section
/-! DEFINITION. The whole architectural state of spec/10_state.md (its opening box and rules R10 to
R28), the reset state, and the reasons a step can stop. -/

namespace Sys2Proof.Machine

/-- One listed Word of memory at a Word address. The hardware has no bytes (rule R30), so the cell is a
Word, its smallest addressable unit (rule R20). DESIGN CHOICE, assumption 1. -/
abbrev Cell := Nat × Word

/-- Rule R20: the one flat address space, as the list of the Words that differ from the reset Word.
DESIGN CHOICE, assumption 2. -/
abbrev Memory := List Cell

/-- The canonical form of a memory: addresses strictly rising, each one of the 65536, and no entry that
an unlisted address would read as. -/
abbrev Memory.wf (m : Memory) : Prop :=
  m.Pairwise (fun c d => c.1 < d.1) ∧ ∀ c ∈ m, c.1 < Config.memWords ∧ c.2 ≠ Config.resetWord

/-- Rule R19: the ten named slots of the register file. -/
inductive Slot where
  | gpr (i : RegIx)
  | pc
  | cond
  deriving DecidableEq, Repr

/-- The state of spec/10_state.md: "There is nothing else". -/
structure State where
  /-- Rule R10: the general registers R0 to R7. -/
  x : Vector Word 8
  /-- Rule R13: the program counter, a Word address. -/
  pc : Word
  /-- Rule R16: the condition-flag register, bit 2 = N, bit 1 = Z, bit 0 = P (assumption 6). -/
  cond : Word
  /-- Rule R20: memory. -/
  mem : Memory
  deriving DecidableEq, Repr

/-- Rules R25 to R28 and R160: the Machine right after construction. -/
def State.reset : State where
  x := Vector.replicate 8 Config.resetReg
  pc := Config.resetPc
  cond := Config.resetCond
  mem := []

/-- Why a step ends without a next state. -/
inductive Fault where
  /-- Rule R140, raised by the two reserved selectors only (rules R131 and R132), carrying the fetched
  Word. SAFE: the spec reports exactly this condition and leaves the state as it was before the step
  (rule R147); the host layer of Machine/HostInterface.lean goes on from that state. -/
  | illegalOpcode (ir : Word)
  deriving DecidableEq, Repr

/-- Why an instruction has no meaning in the model. -/
inductive Refusal where
  /-- An instruction without a meaning, raised by no arm of `exec`: every row has its meaning. SAFE: a
  refusal proves nothing about the hardware. -/
  | notModelled (mnemonic : String)
  deriving DecidableEq, Repr

end Sys2Proof.Machine
end

