-- ==== Sys2Proof/Machine/Ops.lean ====
section
/-! DEFINITION. The named operations over memory and registers (rules R7, R8, R32, R33, R165), the PC
advance (rule R81), the link-and-transfer of JSR, JSRR and TRAP (rules R122, R123, R130, R146) and the
report of `IllegalOpcode` (rules R140 and R147). -/

namespace Sys2Proof.Machine

/-! ### Memory -/

/-- The Word at an address number: the listed one, or the reset Word (rule R28). -/
def Memory.get : Memory → Nat → Word
  | [], _ => Config.resetWord
  | c :: m, a => if c.1 = a then c.2 else Memory.get m a

/-- Memory without any entry at `a`. -/
def Memory.erase (m : Memory) (a : Nat) : Memory := m.filter (fun c => c.1 != a)

/-- Memory with the entry `(a, v)` put before the first larger address. -/
def Memory.insert : Memory → Nat → Word → Memory
  | [], a, v => [(a, v)]
  | c :: m, a, v => if a < c.1 then (a, v) :: c :: m else c :: Memory.insert m a v

/-- Memory with the Word at `a` set to `v`; writing the reset Word removes the entry. -/
def Memory.set (m : Memory) (a : Nat) (v : Word) : Memory :=
  if v = Config.resetWord then m.erase a else (m.erase a).insert a v

/-- Rule R32: `MemRead(addr, 16)`, total and without side effect. -/
def Memory.read (m : Memory) (a : Word) : Word := m.get a.toNat

/-- Rule R33: `MemWrite(addr, 16, v)`, total; every other Word is unchanged. -/
def Memory.write (m : Memory) (a v : Word) : Memory := m.set a.toNat v

/-- Rule R163: a block copied to ascending addresses from `a` on. -/
def Memory.writeBlock : Memory → Word → List Word → Memory
  | m, _, [] => m
  | m, a, v :: vs => Memory.writeBlock (m.write a v) (a + 1) vs

/-- Rule R7: the Word at a Word address. -/
def State.memRead (s : State) (a : Word) : Word := s.mem.read a

/-- Rule R7: memory with one Word stored. -/
def State.memWrite (s : State) (a v : Word) : State := { s with mem := s.mem.write a v }

/-! ### Registers -/

/-- Rule R7: `x[i]`. -/
def State.readReg (s : State) (i : RegIx) : Word := s.x[i.toNat]'i.isLt

/-- Rule R7: `x[i] <- v`. No register is hardwired (rule R10). -/
def State.writeReg (s : State) (i : RegIx) (v : Word) : State :=
  { s with x := s.x.set i.toNat v i.isLt }

/-- Rule R7: `pc <- v`. -/
def State.setPc (s : State) (v : Word) : State := { s with pc := v }

/-- Rule R7: `cond <- v`. -/
def State.setCond (s : State) (v : Word) : State := { s with cond := v }

/-- Rule R165: `reg_read(slot)`, total over the ten slots. -/
def State.readSlot (s : State) : Slot → Word
  | .gpr i => s.readReg i
  | .pc => s.pc
  | .cond => s.cond

/-- Rule R165: `reg_write(slot, v)`, total over the ten slots; any Word is accepted. -/
def State.writeSlot (s : State) (r : Slot) (v : Word) : State :=
  match r with
  | .gpr i => s.writeReg i v
  | .pc => s.setPc v
  | .cond => s.setCond v

/-! ### Fetch and advance -/

/-- Rule R81, phase 1: the Word at PC. -/
def State.fetch (s : State) : Word := s.memRead s.pc

/-- Rule R3 `PC_INCREMENT`, decision D1 (UNVERIFIED, assumption 22): one Word. -/
abbrev pcIncrement : Word := 1

/-- Rule R8: `npc`, the address after the instruction's own, modulo 65536 (rule R15, decision D9;
UNVERIFIED, assumption 12). It is read off the state at the start of the step (DEDUCED, assumption 5). -/
def State.npc (s : State) : Word := s.pc + pcIncrement

/-- Rule R81, phase 2: `pc <- npc`. -/
def State.advance (s : State) : State := s.setPc s.npc

/-! ### Transfers, traps and the reported condition -/

/-- Rule R11: the link register by function, R7. -/
abbrev linkReg : RegIx := 7

/-- The first half of JSR, JSRR and TRAP: PC advanced and `x[7] <- npc`. Nothing else is saved
(rule R146). -/
def State.link (s : State) : State := s.advance.writeReg linkReg s.npc

/-- Rule R146, trap entry: link, then go to the address that the table's Word at `entry` holds. -/
def State.enterTrap (s : State) (entry : Word) : State := s.link.setPc (s.link.memRead entry)

/-- Rules R121 and R148: go to the address a register holds. With R7 this is the only return there is,
and it restores nothing but PC. -/
def State.jumpTo (s : State) (base : RegIx) : State := s.setPc (s.readReg base)

/-- Rules R82, R140 and R147: the step reports `IllegalOpcode(ir)` with the Word fetched at PC. The
machine has no entry for it: no state is saved or changed and control goes nowhere. The fetched Word is the Word
at PC of the start-of-step state (DEDUCED, assumption 4); that PC stays there is decision D8 (UNVERIFIED,
assumption 11). -/
def raiseIllegalOpcode (s : State) : Host.Outcome State Fault Refusal := .fault (.illegalOpcode s.fetch)

end Sys2Proof.Machine
end

