-- ==== Sys2Proof/Machine/Operands.lean ====
section
/-! DEFINITION. Field extension (rules R6, R66, R67), the ALU's three data operations (rule R88) and the
effective addresses of the addressing modes (opening table of spec/42_data_movement.md, rules R34 and
R36). Every address is read off the state at the start of the step, where PC is the instruction's own
address. -/

namespace Sys2Proof.Machine

/-- Rule R6: `sext_16`. -/
def sext16 {n : Nat} (f : BitVec n) : Word := f.signExtend 16

/-- Rule R6: `zext_16`. -/
def zext16 {n : Nat} (f : BitVec n) : Word := f.setWidth 16

/-! ### The ALU -/

/-- Rule R88: addition modulo 65536; carry and overflow are discarded. -/
def aluAdd (a b : Word) : Word := a + b

/-- Rule R88: bitwise AND. -/
def aluAnd (a b : Word) : Word := a &&& b

/-- Rules R88 and R104: bitwise NOT, `v xor 0xFFFF`. -/
def aluNot (a : Word) : Word := a ^^^ 0xFFFF

/-- Rules R36 and R88: the address adder, the same sum modulo 65536. -/
def addressAdd {n : Nat} (a : Word) (off : BitVec n) : Word := a + sext16 off

/-! ### Effective addresses -/

/-- PC-relative with a 9-bit offset: `npc + sext_16(ir[8:0])`. -/
def State.eaPc9 (s : State) (off9 : BitVec 9) : Word := addressAdd s.npc off9

/-- PC-relative with an 11-bit offset (rule R122): `npc + sext_16(ir[10:0])`. -/
def State.eaPc11 (s : State) (off11 : BitVec 11) : Word := addressAdd s.npc off11

/-- Base plus offset: `x[BaseR] + sext_16(ir[5:0])`. -/
def State.eaBase (s : State) (base : RegIx) (off6 : BitVec 6) : Word := addressAdd (s.readReg base) off6

/-- Indirect: the pointer Word read at the PC-relative address. -/
def State.eaIndirect (s : State) (off9 : BitVec 9) : Word := s.memRead (s.eaPc9 off9)

/-- Rule R34, decision D7 (UNVERIFIED, assumption 10): the trap vector table begins at address 0x0000. -/
abbrev trapTableBase : Word := 0x0000

/-- Rules R34 and R67: the address of the table entry of a trap vector. -/
def trapEntryAddr (vec8 : BitVec 8) : Word := trapTableBase + zext16 vec8

end Sys2Proof.Machine
end

