-- ==== Sys2Proof/Machine/Flags.lean ====
section
/-! DEFINITION. The condition-flag generator (rules R16, R86, R87) and Branch's test of it (rule
R120). -/

namespace Sys2Proof.Machine

/-- Rule R16, decision D3 (UNVERIFIED, assumption 6): P is bit 0. -/
abbrev condP : Word := 0x0001

/-- Rule R16, decision D3 (UNVERIFIED, assumption 6): Z is bit 1. -/
abbrev condZ : Word := 0x0002

/-- Rule R16, decision D3 (UNVERIFIED, assumption 6): N is bit 2. -/
abbrev condN : Word := 0x0004

/-- Rule R86: the COND value of a written Word. -/
def ccOf (v : Word) : Word := if v.getLsbD 15 then condN else if v = 0x0000 then condZ else condP

/-- Rule R86: `setcc(v)`. The old COND plays no part (rule R87). -/
def State.setcc (s : State) (v : Word) : State := s.setCond (ccOf v)

/-- The end of every data-producing instruction: `x[DR] <- t` and then `setcc(t)` (rule R87). -/
def State.produce (s : State) (dr : RegIx) (t : Word) : State := (s.writeReg dr t).setcc t

/-- Rule R120: `(ir[11:9] and cond[2:0]) != 0b000`, n with N, z with Z, p with P. Bits 15 to 3 of COND
are not looked at (decision D20; UNVERIFIED, assumption 14). -/
def branchTaken (n z p : Bool) (cond : Word) : Bool :=
  (n && cond.getLsbD 2) || (z && cond.getLsbD 1) || (p && cond.getLsbD 0)

end Sys2Proof.Machine
end

