-- ==== Sys2Proof/Machine/Control.lean ====
section
/-! DEFINITION. The control transfers of spec/43_control.md: BR, JMP, JSR, JSRR. None writes COND or
memory. -/

namespace Sys2Proof.Machine

/-- Rule R120. -/
def execBr (n z p : Bool) (off9 : BitVec 9) (s : State) : Host.Outcome State Fault Refusal :=
  .next (if branchTaken n z p s.cond then s.setPc (s.eaPc9 off9) else s.advance)

/-- Rule R121; with base R7 it is the return (rule R148). -/
def execJmp (base : RegIx) (s : State) : Host.Outcome State Fault Refusal :=
  .next (s.advance.jumpTo base)

/-- Rule R122. -/
def execJsr (off11 : BitVec 11) (s : State) : Host.Outcome State Fault Refusal :=
  .next (s.link.setPc (s.eaPc11 off11))

/-- Rule R123, decision D6 (UNVERIFIED, assumption 9): the link is written before the base is read, so base
R7 falls through. -/
def execJsrr (base : RegIx) (s : State) : Host.Outcome State Fault Refusal :=
  .next (s.link.jumpTo base)

end Sys2Proof.Machine
end

