-- ==== Sys2Proof/Machine/DataMovement.lean ====
section
/-! DEFINITION. The data movement instructions of spec/42_data_movement.md: LD, ST, LDI, STI, LDR, STR,
LEA. -/

namespace Sys2Proof.Machine

/-- Rule R110. -/
def execLd (dr : RegIx) (off9 : BitVec 9) (s : State) : Host.Outcome State Fault Refusal :=
  .next (s.advance.produce dr (s.memRead (s.eaPc9 off9)))

/-- Rule R111. -/
def execSt (sr : RegIx) (off9 : BitVec 9) (s : State) : Host.Outcome State Fault Refusal :=
  .next (s.advance.memWrite (s.eaPc9 off9) (s.readReg sr))

/-- Rule R112: two reads, the pointer and then the data. -/
def execLdi (dr : RegIx) (off9 : BitVec 9) (s : State) : Host.Outcome State Fault Refusal :=
  .next (s.advance.produce dr (s.memRead (s.eaIndirect off9)))

/-- Rule R113: the pointer is read before the store. -/
def execSti (sr : RegIx) (off9 : BitVec 9) (s : State) : Host.Outcome State Fault Refusal :=
  .next (s.advance.memWrite (s.eaIndirect off9) (s.readReg sr))

/-- Rule R114: the base is read before DR is written. -/
def execLdr (dr base : RegIx) (off6 : BitVec 6) (s : State) : Host.Outcome State Fault Refusal :=
  .next (s.advance.produce dr (s.memRead (s.eaBase base off6)))

/-- Rule R115. -/
def execStr (sr base : RegIx) (off6 : BitVec 6) (s : State) : Host.Outcome State Fault Refusal :=
  .next (s.advance.memWrite (s.eaBase base off6) (s.readReg sr))

/-- Rule R116: the address itself is the result, and it sets the flags. -/
def execLea (dr : RegIx) (off9 : BitVec 9) (s : State) : Host.Outcome State Fault Refusal :=
  .next (s.advance.produce dr (s.eaPc9 off9))

end Sys2Proof.Machine
end

