-- ==== Sys2Proof/Machine/Operate.lean ====
section
/-! DEFINITION. The operate instructions of spec/41_operate.md: ADD, ADD immediate, AND, AND immediate,
NOT. Sources are read off the state at the start of the step, before the destination is written. -/

namespace Sys2Proof.Machine

/-- Rule R100. -/
def execAdd (dr sr1 sr2 : RegIx) (s : State) : Host.Outcome State Fault Refusal :=
  .next (s.advance.produce dr (aluAdd (s.readReg sr1) (s.readReg sr2)))

/-- Rule R101. -/
def execAddi (dr sr1 : RegIx) (imm5 : BitVec 5) (s : State) : Host.Outcome State Fault Refusal :=
  .next (s.advance.produce dr (aluAdd (s.readReg sr1) (sext16 imm5)))

/-- Rule R102. -/
def execAnd (dr sr1 sr2 : RegIx) (s : State) : Host.Outcome State Fault Refusal :=
  .next (s.advance.produce dr (aluAnd (s.readReg sr1) (s.readReg sr2)))

/-- Rule R103. -/
def execAndi (dr sr1 : RegIx) (imm5 : BitVec 5) (s : State) : Host.Outcome State Fault Refusal :=
  .next (s.advance.produce dr (aluAnd (s.readReg sr1) (sext16 imm5)))

/-- Rule R104. -/
def execNot (dr sr : RegIx) (s : State) : Host.Outcome State Fault Refusal :=
  .next (s.advance.produce dr (aluNot (s.readReg sr)))

end Sys2Proof.Machine
end

