-- ==== Sys2Proof/Machine/System.lean ====
section
/-! DEFINITION. The system instruction TRAP and the two reserved selectors of
spec/44_trap_and_reserved.md. -/

namespace Sys2Proof.Machine

/-- Rules R130 and R146: an ordinary instruction that always completes. -/
def execTrap (vec8 : BitVec 8) (s : State) : Host.Outcome State Fault Refusal :=
  .next (s.enterTrap (trapEntryAddr vec8))

/-- Rule R131, selector 1000: `raise IllegalOpcode(ir)`. -/
def execRes8 (s : State) : Host.Outcome State Fault Refusal := raiseIllegalOpcode s

/-- Rule R132, selector 1101: `raise IllegalOpcode(ir)`. -/
def execResd (s : State) : Host.Outcome State Fault Refusal := raiseIllegalOpcode s

end Sys2Proof.Machine
end

