-- ==== Sys2Proof/Machine/Step.lean ====
section
/-! DEFINITION. The step function of rule R84, and the placing of one instruction where the next fetch
finds it. -/

namespace Sys2Proof.Machine

/-- Rules R81 and R84: fetch at PC, decode, execute; PC's advance and COND's update are the execute
phase's own, so the step adds nothing around `exec`. -/
def step (s : State) : Host.Outcome State Fault Refusal := exec (decode s.fetch) s

/-- The state with one instruction Word stored at PC. It stands for the host's `load` (rule R163). DESIGN
CHOICE, assumption 18. -/
def State.withFetchWord (s : State) (nbits w : Nat) : State :=
  s.memWrite s.pc (BitVec.ofNat 16 (w % 2 ^ nbits))

end Sys2Proof.Machine
end

