-- ==== Sys2Proof/Machine/Accesses.lean ====
section
/-! DEFINITION. The memory accesses of a step, in order (rule R40: "A model that records memory events
records exactly these"). They are outputs of a step, not state (rule R23). -/

namespace Sys2Proof.Machine

/-- One access of one Word (rules R32, R33 and R41). -/
inductive Access where
  | read (a : Word)
  | write (a v : Word)
  deriving DecidableEq, Repr

/-- Rule R40, access 2 and access 3: what the execute phase reads and writes, in order. -/
def dataAccesses (i : Instr) (s : State) : List Access :=
  match i with
  | .add _ _ _ | .addi _ _ _ | .and _ _ _ | .andi _ _ _ | .not _ _ | .lea _ _ => []
  | .br _ _ _ _ | .jmp _ | .jsr _ | .jsrr _ => []
  | .res8 | .resd => []
  | .ld _ off9 => [.read (s.eaPc9 off9)]
  | .st sr off9 => [.write (s.eaPc9 off9) (s.readReg sr)]
  | .ldr _ base off6 => [.read (s.eaBase base off6)]
  | .str sr base off6 => [.write (s.eaBase base off6) (s.readReg sr)]
  | .ldi _ off9 => [.read (s.eaPc9 off9), .read (s.eaIndirect off9)]
  | .sti sr off9 => [.read (s.eaPc9 off9), .write (s.eaIndirect off9) (s.readReg sr)]
  | .trap vec8 => [.read (trapEntryAddr vec8)]

/-- Rule R40: the accesses of one step, the fetch first. -/
def stepAccesses (s : State) : List Access := .read s.pc :: dataAccesses (decode s.fetch) s

/-- Memory after a list of accesses: the reads change nothing, the writes take effect in order. -/
def Memory.replay : Memory → List Access → Memory
  | m, [] => m
  | m, .read _ :: as => Memory.replay m as
  | m, .write a v :: as => Memory.replay (m.write a v) as

end Sys2Proof.Machine
end

