-- ==== Sys2Proof/Machine/HostInterface.lean ====
section
/-! DEFINITION. The host interface of spec/70_reset_and_hazards.md: the step result (rules R89, R164), the
six host operations between steps (rules R163 to R166), boot (rule R162), the end of a run (rule R168)
and several Machines (rule R167). -/

namespace Sys2Proof.Machine

/-- Rule R89: what `step` returns to the host. An output, not state. Its form is decision D12 (UNVERIFIED,
assumption 15). -/
inductive StepResult where
  | executed (i : Instr)
  | illegalOpcode (ir : Word)
  deriving DecidableEq, Repr

/-- Rules R163 to R165: what the host can do at a step boundary, by decision D15 (UNVERIFIED,
assumption 15). -/
inductive HostOp where
  | load (block : List Word) (offset : Word)
  | step
  | regRead (r : Slot)
  | regWrite (r : Slot) (v : Word)
  | memRead (a : Word)
  | memWrite (a v : Word)
  deriving DecidableEq, Repr

/-- What a host operation returns; rule R141 identifies the two conditions by constructor. -/
inductive HostReply where
  | done
  /-- Rules R142 and R163: the block does not fit. -/
  | outOfBoundsLoad
  | word (v : Word)
  | stepped (r : StepResult)
  deriving DecidableEq, Repr

/-- Rules R84, R89 and R164: the step as the host sees it, total and always answered. After
`IllegalOpcode` the state is the one before the step and the controller is still Running (rules R80
and R147). The last line is never reached, since no instruction is refused. -/
def hostStep (s : State) : State × StepResult :=
  match step s with
  | .next t => (t, .executed (decode s.fetch))
  | .fault (.illegalOpcode ir) => (s, .illegalOpcode ir)
  | .refused _ => (s, .illegalOpcode s.fetch)

/-- Rule R163, success condition, in unbounded integers. -/
def loadFits (block : List Word) (offset : Word) : Bool := offset.toNat + block.length ≤ Config.memWords

/-- Rule R163, decision D13 (UNVERIFIED, assumption 16): all or nothing; PC is not set. -/
def hostLoad (block : List Word) (offset : Word) (s : State) : State × HostReply :=
  if loadFits block offset then ({ s with mem := s.mem.writeBlock offset block }, .done)
  else (s, .outOfBoundsLoad)

/-- Rule R166: one host operation, wholly between two steps. -/
def hostApply (op : HostOp) (s : State) : State × HostReply :=
  match op with
  | .load block offset => hostLoad block offset s
  | .step => ((hostStep s).1, .stepped (hostStep s).2)
  | .regRead r => (s, .word (s.readSlot r))
  | .regWrite r v => (s.writeSlot r v, .done)
  | .memRead a => (s, .word (s.memRead a))
  | .memWrite a v => (s.memWrite a v, .done)

/-- Rule R166: host operations one after another. -/
def hostScript : List HostOp → State → State × List HostReply
  | [], s => (s, [])
  | op :: ops, s =>
    let r := hostApply op s
    let rest := hostScript ops r.1
    (rest.1, r.2 :: rest.2)

/-- Rule R162: the host's boot after reset, in the order listed there: load the images (program, trap
table, service routines), set PC to the entry point, set general registers. The rule allows any order of the
three (DESIGN CHOICE, assumption 21). -/
def bootScript (images : List (Word × List Word)) (entry : Word) (regs : List (RegIx × Word)) : List HostOp :=
  images.map (fun im => .load im.2 im.1) ++ .regWrite .pc entry :: regs.map (fun r => .regWrite (.gpr r.1) r.2)

/-- Rule R168: the recommended instance of the open parameter `STOP`. The vector 0x25 means nothing to
the hardware. -/
def stopAtHaltOrIllegal : StepResult → Bool
  | .executed (.trap vec8) => vec8 = 0x25
  | .executed _ => false
  | .illegalOpcode _ => true

/-- Rule R168: the host's run loop with its stopping rule and a step budget: the state reached, the number
of steps taken, and the result that stopped it, if one did before the budget was used up. -/
def hostRun (stop : StepResult → Bool) : Nat → State → State × Nat × Option StepResult
  | 0, s => (s, 0, none)
  | k + 1, s =>
    let r := hostStep s
    if stop r.2 then (r.1, 1, some r.2)
    else
      let rest := hostRun stop k r.1
      (rest.1, rest.2.1 + 1, rest.2.2)

/-- Rules R153 and R167: several Machines, each with its own state; an operation acts on the one it is
given to, and there is no reply where no Machine has that number. -/
def machinesApply : Nat → HostOp → List State → List State × Option HostReply
  | _, _, [] => ([], none)
  | 0, op, s :: ms => ((hostApply op s).1 :: ms, some (hostApply op s).2)
  | k + 1, op, s :: ms =>
    let rest := machinesApply k op ms
    (s :: rest.1, rest.2)

end Sys2Proof.Machine
end

