-- ==== Sys2Proof/Safety.lean ====
section
/-! DEFINITION. The terms in which statements about runs are made: which instructions produce data and
into which register (rules R12, R18, R87), which write the link register (rule R11), which COND values
the hardware makes (rule R17), and the invariant of the state. -/

namespace Sys2Proof

/-- Rules R12 and R87: the destination register of the nine data-producing forms. -/
def Instr.dataDest : Instr → Option RegIx
  | .add dr _ _ | .addi dr _ _ | .and dr _ _ | .andi dr _ _ | .not dr _ => some dr
  | .ld dr _ | .ldi dr _ | .ldr dr _ _ | .lea dr _ => some dr
  | .br _ _ _ _ | .st _ _ | .sti _ _ | .str _ _ _ | .jmp _ | .jsr _ | .jsrr _ | .trap _ => none
  | .res8 | .resd => none

/-- Rule R12: the general register an instruction writes, the link register of JSR, JSRR and TRAP
included. -/
def Instr.writtenReg : Instr → Option RegIx
  | .jsr _ | .jsrr _ | .trap _ => some Machine.linkReg
  | .add dr _ _ | .addi dr _ _ | .and dr _ _ | .andi dr _ _ | .not dr _ => some dr
  | .ld dr _ | .ldi dr _ | .ldr dr _ _ | .lea dr _ => some dr
  | .br _ _ _ _ | .st _ _ | .sti _ _ | .str _ _ _ | .jmp _ | .res8 | .resd => none

/-- Rule R13: the forms that can send PC elsewhere than to `npc`. -/
def Instr.isTransfer : Instr → Bool
  | .br _ _ _ _ | .jmp _ | .jsr _ | .jsrr _ | .trap _ => true
  | .add _ _ _ | .addi _ _ _ | .and _ _ _ | .andi _ _ _ | .not _ _ | .ld _ _ | .st _ _ | .ldi _ _
  | .sti _ _ | .ldr _ _ _ | .str _ _ _ | .lea _ _ | .res8 | .resd => false

/-- Rule R18: the one form that reads COND. -/
def Instr.isBranch : Instr → Bool
  | .br _ _ _ _ => true
  | .add _ _ _ | .addi _ _ _ | .and _ _ _ | .andi _ _ _ | .not _ _ | .ld _ _ | .st _ _ | .ldi _ _
  | .sti _ _ | .ldr _ _ _ | .str _ _ _ | .lea _ _ | .jmp _ | .jsr _ | .jsrr _ | .trap _ => false
  | .res8 | .resd => false

namespace Machine

/-- Rule R17: exactly one flag is set. -/
def condOneFlag (c : Word) : Bool := c = condN || c = condZ || c = condP

/-- Rule R17: the values COND takes under hardware writes alone. -/
def condReachable (c : Word) : Bool := c = Config.resetCond || condOneFlag c

/-- The invariant of the machine: memory is in its canonical form and COND holds a value the hardware
writes. -/
def State.Inv (s : State) : Prop := s.mem.wf ∧ condReachable s.cond = true

/-- Rules R63 and R172 (d): the next step executes a defined instruction. -/
def State.nextIsDefined (s : State) : Bool := (decode s.fetch).isDefined

/-- Rule R165 and entry U10 of spec/93_implementation_defined.md: a host operation that writes COND, if at all, with a value the hardware
writes. -/
def HostOp.condLegal : HostOp → Bool
  | .regWrite .cond v => condReachable v
  | .regWrite .pc _ | .regWrite (.gpr _) _ => true
  | .load _ _ | .step | .regRead _ | .memRead _ | .memWrite _ _ => true

end Machine

end Sys2Proof
end

