-- ==== Sys2Proof/Certificates/Slice0/Obligations.lean ====
section
/-! DEFINITION. The statements for the provers, one `def Obligations.<Name> : Prop` each, from the numbered
rules of spec/. The predicates under `Sys2Proof.Claims` say once what the effect shapes of the instruction
rules leave changed and unchanged. -/

namespace Sys2Proof.Claims

open Sys2Proof.Machine

/-- Rule R86: "negative → N, zero → Z, positive → P (exactly one flag set)", by the signed reading. Where
each flag stands in COND is the spec's decision D3, stated by `SetccLeavesTheFlagOfTheSign`. -/
def FlagOf (v c : Word) : Prop :=
  (v.toInt < 0 → c = condN) ∧ (v.toInt = 0 → c = condZ) ∧ (0 < v.toInt → c = condP)

/-- `i` completes from `s`: `v` is in `dr`, COND holds the flag of `v`, PC is at the next Word, and no
other register and no Word of memory is changed. -/
def Produces (i : Instr) (s : State) (dr : RegIx) (v : Word) : Prop :=
  ∃ t, exec i s = .next t ∧ t.readReg dr = v ∧ FlagOf v t.cond ∧ t.pc = s.pc + 1 ∧
    (∀ r, r ≠ dr → t.readReg r = s.readReg r) ∧ ∀ a, t.memRead a = s.memRead a

/-- `i` completes from `s`: the Word at `a` is `v`, every other Word is as before, PC is at the next Word,
and no general register and not COND is changed. -/
def Stores (i : Instr) (s : State) (a v : Word) : Prop :=
  ∃ t, exec i s = .next t ∧ t.memRead a = v ∧ (∀ b, b ≠ a → t.memRead b = s.memRead b) ∧
    t.pc = s.pc + 1 ∧ t.cond = s.cond ∧ ∀ r, t.readReg r = s.readReg r

/-- `i` completes from `s`: PC is `p` and nothing else is changed. -/
def GoesTo (i : Instr) (s : State) (p : Word) : Prop :=
  ∃ t, exec i s = .next t ∧ t.pc = p ∧ t.cond = s.cond ∧ (∀ r, t.readReg r = s.readReg r) ∧
    ∀ a, t.memRead a = s.memRead a

/-- `i` completes from `s`: R7 is the address after the instruction, PC is `p`, and nothing else is
changed. -/
def LinksTo (i : Instr) (s : State) (p : Word) : Prop :=
  ∃ t, exec i s = .next t ∧ t.readReg 7 = s.pc + 1 ∧ t.pc = p ∧ t.cond = s.cond ∧
    (∀ r, r ≠ 7 → t.readReg r = s.readReg r) ∧ ∀ a, t.memRead a = s.memRead a

/-- `i` reports `IllegalOpcode` with the Word at PC; the host finds the state as it was, and a second step
reports the same. -/
def ReportsIllegal (s : State) : Prop :=
  step s = .fault (.illegalOpcode (s.memRead s.pc)) ∧
    hostStep s = (s, .illegalOpcode (s.memRead s.pc)) ∧ hostStep (hostStep s).1 = hostStep s

/-- The sum of a Word and a signed number, modulo 65536 (rules R5 and R36). -/
def wrap (a : Word) (k : Int) : Word := BitVec.ofInt 16 (a.toNat + k)

/-- Rule R82: the selector `ir[15:12]` is 1000 or 1101. -/
def reservedSelector (w : Word) : Bool := w.extractLsb' 12 4 = 0b1000 || w.extractLsb' 12 4 = 0b1101

/-- Rule R6 for one field width. -/
def ExtensionLaw (n : Nat) : Prop :=
  ∀ f : BitVec n,
    (sext16 f).toNat = (if f.toNat < 2 ^ (n - 1) then f.toNat else f.toNat + 65536 - 2 ^ n) ∧
    (∀ k < 16, (sext16 f).getLsbD k = if k < n then f.getLsbD k else f.getLsbD (n - 1)) ∧
    (sext16 f).toInt = f.toInt ∧ -(2 ^ (n - 1)) ≤ f.toInt ∧ f.toInt < 2 ^ (n - 1)

/-- Rule R68: a source line with a number in the range of an `n`-bit field assembles to a Word that decodes
to `mk` of a field with that number as its signed reading; out of range it assembles to nothing. -/
def AssemblesNumber (n : Nat) (line : Int → AsmLine) (mk : BitVec n → Instr) : Prop :=
  ∀ v : Int,
    (-(2 ^ (n - 1)) ≤ v ∧ v < 2 ^ (n - 1) ∧
      ∃ w f, assemble (line v) = some w ∧ decode w = mk f ∧ f.toInt = v) ∨
    (¬(-(2 ^ (n - 1)) ≤ v ∧ v < 2 ^ (n - 1)) ∧ assemble (line v) = none)

/-- The state after `k` host steps. -/
def afterSteps : Nat → State → State
  | 0, s => s
  | k + 1, s => afterSteps k (hostStep s).1

/-- Two states that a step cannot tell apart by registers, PC and COND. -/
def SameRegisters (s t : State) : Prop := s.x = t.x ∧ s.pc = t.pc ∧ s.cond = t.cond

/-- Two step outcomes that agree on everything but memory. -/
def SameButMemory : Host.Outcome State Fault Refusal → Host.Outcome State Fault Refusal → Prop
  | .next s, .next t => SameRegisters s t
  | .fault f, .fault g => f = g
  | .refused r, .refused q => r = q
  | .next _, .fault _ | .next _, .refused _ => False
  | .fault _, .next _ | .fault _, .refused _ => False
  | .refused _, .next _ | .refused _, .fault _ => False

end Sys2Proof.Claims

open Sys2Proof Sys2Proof.Machine Sys2Proof.Claims

/-! ### Encoding -/

/-- The encoder's Word of every instruction decodes to that instruction, at every operand value. -/
def Obligations.DecodeInvertsEncode : Prop := ∀ i : Instr, decode (encode i) = i

/-- Encoding what a Word decodes to gives the Word back in every bit that rule R64 does not call
ignored. -/
def Obligations.EncodeOfDecodeKeepsEveryUsedBit : Prop :=
  ∀ w : Word, (encode (decode w) ^^^ w) &&& ~~~(decode w).row.ignored = 0

/-- Rule R62: the map's 19 rows, and that every Word selects exactly one of them, the row of what it decodes
to. -/
def Obligations.EveryWordSelectsExactlyItsRow : Prop :=
  opcodeMap.map (fun r => (r.mnemonic, r.mask, r.pattern)) =
    [("BR", 0xF000, 0x0000), ("ADD", 0xF020, 0x1000), ("ADDI", 0xF020, 0x1020), ("LD", 0xF000, 0x2000),
     ("ST", 0xF000, 0x3000), ("JSR", 0xF800, 0x4800), ("JSRR", 0xF800, 0x4000), ("AND", 0xF020, 0x5000),
     ("ANDI", 0xF020, 0x5020), ("LDR", 0xF000, 0x6000), ("STR", 0xF000, 0x7000), ("RES8", 0xF000, 0x8000),
     ("NOT", 0xF000, 0x9000), ("LDI", 0xF000, 0xA000), ("STI", 0xF000, 0xB000), ("JMP", 0xF000, 0xC000),
     ("RESD", 0xF000, 0xD000), ("LEA", 0xF000, 0xE000), ("TRAP", 0xF000, 0xF000)] ∧
  ∀ w : Word, (decode w).row ∈ opcodeMap ∧
    ∀ r ∈ opcodeMap, (w &&& r.mask = r.pattern ↔ r = (decode w).row)

/-- Rule R64: the ignored bits of every row, that two Words that differ only in them decode to the same
instruction, hence execute identically, that only the two reserved selectors report `IllegalOpcode`, and what an
assembler emits there: ones in NOT, zeros elsewhere. That they are ignored is the spec's decision D11, what is
emitted its D14, and the zeros in the two placeholders' Words the model's own choice (assumption 13). -/
def Obligations.IgnoredBitsChangeNothing : Prop :=
  opcodeMap.map (fun r => r.ignored) =
    [0x0000, 0x0018, 0x0000, 0x0000, 0x0000, 0x0000, 0x063F, 0x0018, 0x0000, 0x0000, 0x0000, 0x0FFF,
     0x003F, 0x0000, 0x0000, 0x0E3F, 0x0FFF, 0x0000, 0x0F00] ∧
  (∀ w w' : Word, (w ^^^ w') &&& ~~~(decode w).row.ignored = 0 →
    decode w' = decode w ∧ (∀ s, exec (decode w') s = exec (decode w) s) ∧
    ∀ s f, exec (decode w) s = .fault f → reservedSelector w = true) ∧
  (∀ dr sr, encode (.not dr sr) &&& (Instr.not dr sr).row.ignored = 0x003F) ∧
  ∀ i : Instr, i.row.mnemonic ≠ "NOT" → encode i &&& i.row.ignored = 0

/-- Rule R63: the Words 0x8000 to 0x8FFF and 0xD000 to 0xDFFF decode to the two placeholders and report
`IllegalOpcode` without a change of state; every other Word is a defined instruction and completes. That PC too is
unchanged is the spec's decision D8 (assumption 11). -/
def Obligations.OnlyTheReservedSelectorsArePlaceholders : Prop :=
  ∀ w : Word,
    (decode w = .res8 ↔ 0x8000 ≤ w.toNat ∧ w.toNat ≤ 0x8FFF) ∧
    (decode w = .resd ↔ 0xD000 ≤ w.toNat ∧ w.toNat ≤ 0xDFFF) ∧
    (∀ s : State, s.memRead s.pc = w →
      (decode w = .res8 ∨ decode w = .resd) ∧ ReportsIllegal s ∨
      (decode w).isDefined = true ∧ ∃ t, step s = .next t)

/-- The Words of spec/95_test_vectors.md section 2.1 decode as listed there. -/
def Obligations.ListedWordsDecodeAsTheSpecLists : Prop :=
  [0x0000, 0x0403, 0x0FFD, 0x1283, 0x129B, 0x127F, 0x2402, 0x3205, 0x4805, 0x4FFF, 0x4080, 0x46BF,
   0x5283, 0x5020, 0x6281, 0x7082, 0x8ABC, 0x92BF, 0x9280, 0xA201, 0xB003, 0xC1C0, 0xCEBF, 0xDFFF,
   0xE405, 0xF025, 0xFF25, 0xFFFF].map decode =
  [.br false false false 0x000, .br false true false 0x003, .br true true true 0x1FD, .add 1 2 3,
   .add 1 2 3, .addi 1 1 0x1F, .ld 2 0x002, .st 1 0x005, .jsr 0x005, .jsr 0x7FF, .jsrr 2, .jsrr 2,
   .and 1 2 3, .andi 0 0 0x00, .ldr 1 2 0x01, .str 0 2 0x02, .res8, .not 1 2, .not 1 2, .ldi 1 0x001,
   .sti 0 0x003, .jmp 7, .jmp 2, .resd, .lea 2 0x005, .trap 0x25, .trap 0x25, .trap 0xFF]

/-- Rules R66 and R68: a number written in a source line of each signed field's width is the signed reading
of the field that the assembled Word decodes to; out of the field's range the line assembles to nothing. The
source lines are the spec's decision D14 (assumption 20). -/
def Obligations.WrittenNumbersSurviveAssemblyAndDecoding : Prop :=
  (∀ d a : Fin 8, AssemblesNumber 5 (.addi d a) (.addi (BitVec.ofFin d) (BitVec.ofFin a))) ∧
  (∀ d b : Fin 8, AssemblesNumber 6 (.ldr d b) (.ldr (BitVec.ofFin d) (BitVec.ofFin b))) ∧
  (∀ d : Fin 8, AssemblesNumber 9 (.ld d) (.ld (BitVec.ofFin d))) ∧
  AssemblesNumber 11 .jsr .jsr

/-! ### Extension, addresses, flags, the ALU -/

/-- Rule R6: `sext_16` at the four widths that occur and `zext_16` at 8 bits. -/
def Obligations.ExtensionsFollowTheirFormulas : Prop :=
  ExtensionLaw 5 ∧ ExtensionLaw 6 ∧ ExtensionLaw 9 ∧ ExtensionLaw 11 ∧
  ∀ f : BitVec 8, (zext16 f).toNat = f.toNat

/-- Rule R36: the effective addresses are 16-bit sums modulo 65536, by the spec's decision D9 (assumption
12). -/
def Obligations.EffectiveAddressesWrap : Prop :=
  ∀ (s : State) (off9 : BitVec 9) (off11 : BitVec 11) (base : RegIx) (off6 : BitVec 6),
    s.eaPc9 off9 = wrap (s.pc + 1) off9.toInt ∧ s.eaPc11 off11 = wrap (s.pc + 1) off11.toInt ∧
    s.eaBase base off6 = wrap (s.readReg base) off6.toInt ∧
    s.eaIndirect off9 = s.memRead (wrap (s.pc + 1) off9.toInt)

/-- Rule R86: `setcc(v)` leaves exactly the flag of `v`'s sign and changes nothing but COND. The three
values are the spec's decision D3 (assumption 6). -/
def Obligations.SetccLeavesTheFlagOfTheSign : Prop :=
  ∀ (s : State) (v : Word),
    (v.toInt < 0 → (s.setcc v).cond = 0x0004) ∧ (v.toInt = 0 → (s.setcc v).cond = 0x0002) ∧
    (0 < v.toInt → (s.setcc v).cond = 0x0001) ∧ (s.setcc v).x = s.x ∧ (s.setcc v).pc = s.pc ∧ (s.setcc v).mem = s.mem

/-- Rule R88, the four operations: addition modulo 65536, bitwise AND, bitwise NOT, the address adder. -/
def Obligations.AluComputesModulo65536AndBitwise : Prop :=
  ∀ a b : Word,
    (aluAdd a b).toNat = (a.toNat + b.toNat) % 65536 ∧
    (∀ k, (aluAnd a b).getLsbD k = (a.getLsbD k && b.getLsbD k)) ∧
    (∀ k < 16, (aluNot a).getLsbD k = !a.getLsbD k) ∧ (aluNot a).toNat = 0xFFFF - a.toNat ∧
    ∀ (n : Nat) (f : BitVec n), (addressAdd a f).toNat = (a.toNat + (sext16 f).toNat) % 65536

/-! ### Operate instructions -/

/-- Rule R100. -/
def Obligations.AddPutsTheWrappedSumInDr : Prop :=
  (∀ w : Word, w &&& 0xF020 = 0x1000 →
    decode w = .add (w.extractLsb' 9 3) (w.extractLsb' 6 3) (w.extractLsb' 0 3)) ∧
  ∀ (dr sr1 sr2 : RegIx) (s : State),
    Produces (.add dr sr1 sr2) s dr
      (BitVec.ofNat 16 (((s.readReg sr1).toNat + (s.readReg sr2).toNat) % 65536))

/-- Rule R101. -/
def Obligations.AddImmediatePutsTheWrappedSumInDr : Prop :=
  (∀ w : Word, w &&& 0xF020 = 0x1020 →
    decode w = .addi (w.extractLsb' 9 3) (w.extractLsb' 6 3) (w.extractLsb' 0 5)) ∧
  ∀ (dr sr1 : RegIx) (imm5 : BitVec 5) (s : State),
    Produces (.addi dr sr1 imm5) s dr (wrap (s.readReg sr1) imm5.toInt)

/-- Rule R102. -/
def Obligations.AndPutsTheBitwiseAndInDr : Prop :=
  (∀ w : Word, w &&& 0xF020 = 0x5000 →
    decode w = .and (w.extractLsb' 9 3) (w.extractLsb' 6 3) (w.extractLsb' 0 3)) ∧
  ∀ (dr sr1 sr2 : RegIx) (s : State),
    Produces (.and dr sr1 sr2) s dr (s.readReg sr1 &&& s.readReg sr2)

/-- Rule R103: the immediate is extended before the AND. -/
def Obligations.AndImmediatePutsTheBitwiseAndInDr : Prop :=
  (∀ w : Word, w &&& 0xF020 = 0x5020 →
    decode w = .andi (w.extractLsb' 9 3) (w.extractLsb' 6 3) (w.extractLsb' 0 5)) ∧
  ∀ (dr sr1 : RegIx) (imm5 : BitVec 5) (s : State),
    Produces (.andi dr sr1 imm5) s dr (s.readReg sr1 &&& BitVec.ofInt 16 imm5.toInt)

/-- Rule R104. -/
def Obligations.NotPutsTheComplementInDr : Prop :=
  (∀ w : Word, w &&& 0xF000 = 0x9000 → decode w = .not (w.extractLsb' 9 3) (w.extractLsb' 6 3)) ∧
  ∀ (dr sr : RegIx) (s : State), Produces (.not dr sr) s dr (0xFFFF - s.readReg sr)

/-! ### Data movement -/

/-- Rule R110. -/
def Obligations.LoadPutsTheWordAtTheAddressInDr : Prop :=
  (∀ w : Word, w &&& 0xF000 = 0x2000 → decode w = .ld (w.extractLsb' 9 3) (w.extractLsb' 0 9)) ∧
  ∀ (dr : RegIx) (off9 : BitVec 9) (s : State),
    Produces (.ld dr off9) s dr (s.memRead (wrap (s.pc + 1) off9.toInt))

/-- Rule R111. -/
def Obligations.StoreWritesSrAtTheAddress : Prop :=
  (∀ w : Word, w &&& 0xF000 = 0x3000 → decode w = .st (w.extractLsb' 9 3) (w.extractLsb' 0 9)) ∧
  ∀ (sr : RegIx) (off9 : BitVec 9) (s : State),
    s.eaPc9 off9 = wrap (s.pc + 1) off9.toInt ∧ Stores (.st sr off9) s (s.eaPc9 off9) (s.readReg sr)

/-- Rule R112: the pointer's Word is loaded and sets the flags. -/
def Obligations.LoadIndirectPutsThePointersWordInDr : Prop :=
  (∀ w : Word, w &&& 0xF000 = 0xA000 → decode w = .ldi (w.extractLsb' 9 3) (w.extractLsb' 0 9)) ∧
  ∀ (dr : RegIx) (off9 : BitVec 9) (s : State),
    Produces (.ldi dr off9) s dr (s.memRead (s.memRead (wrap (s.pc + 1) off9.toInt)))

/-- Rule R113: the pointer is read before the store. -/
def Obligations.StoreIndirectWritesSrAtThePointer : Prop :=
  (∀ w : Word, w &&& 0xF000 = 0xB000 → decode w = .sti (w.extractLsb' 9 3) (w.extractLsb' 0 9)) ∧
  ∀ (sr : RegIx) (off9 : BitVec 9) (s : State),
    s.eaIndirect off9 = s.memRead (wrap (s.pc + 1) off9.toInt) ∧
    Stores (.sti sr off9) s (s.eaIndirect off9) (s.readReg sr)

/-- Rule R114: the base is read before DR is written. -/
def Obligations.LoadRegisterPutsTheWordAtTheAddressInDr : Prop :=
  (∀ w : Word, w &&& 0xF000 = 0x6000 →
    decode w = .ldr (w.extractLsb' 9 3) (w.extractLsb' 6 3) (w.extractLsb' 0 6)) ∧
  ∀ (dr base : RegIx) (off6 : BitVec 6) (s : State),
    Produces (.ldr dr base off6) s dr (s.memRead (wrap (s.readReg base) off6.toInt))

/-- Rule R115. -/
def Obligations.StoreRegisterWritesSrAtTheAddress : Prop :=
  (∀ w : Word, w &&& 0xF000 = 0x7000 →
    decode w = .str (w.extractLsb' 9 3) (w.extractLsb' 6 3) (w.extractLsb' 0 6)) ∧
  ∀ (sr base : RegIx) (off6 : BitVec 6) (s : State),
    s.eaBase base off6 = wrap (s.readReg base) off6.toInt ∧
    Stores (.str sr base off6) s (s.eaBase base off6) (s.readReg sr)

/-- Rule R116: the address sets the flags and memory is only fetched from. -/
def Obligations.LoadEffectiveAddressPutsTheAddressInDr : Prop :=
  (∀ w : Word, w &&& 0xF000 = 0xE000 → decode w = .lea (w.extractLsb' 9 3) (w.extractLsb' 0 9)) ∧
  ∀ (dr : RegIx) (off9 : BitVec 9) (s : State),
    Produces (.lea dr off9) s dr (wrap (s.pc + 1) off9.toInt) ∧ dataAccesses (.lea dr off9) s = []

/-! ### Control transfer -/

/-- Rule R120: taken exactly when the mask and COND bits 2 to 0 meet. The pairing of mask bits and COND bits is
the spec's decision D3, the disregard of COND bits 15 to 3 its D20 (assumptions 6 and 14). -/
def Obligations.BranchIsTakenWhenTheMaskMeetsCond : Prop :=
  (∀ w : Word, w &&& 0xF000 = 0x0000 →
    decode w = .br (w.getLsbD 11) (w.getLsbD 10) (w.getLsbD 9) (w.extractLsb' 0 9)) ∧
  ∀ (n z p : Bool) (off9 : BitVec 9) (s : State),
    GoesTo (.br n z p off9) s
      (if (BitVec.ofBool n ++ BitVec.ofBool z ++ BitVec.ofBool p : BitVec 3) &&& s.cond.extractLsb' 0 3 ≠ 0
       then wrap (s.pc + 1) off9.toInt else s.pc + 1)

/-- Rule R121. -/
def Obligations.JumpGoesToTheBaseRegister : Prop :=
  (∀ w : Word, w &&& 0xF000 = 0xC000 → decode w = .jmp (w.extractLsb' 6 3)) ∧
  ∀ (base : RegIx) (s : State), GoesTo (.jmp base) s (s.readReg base)

/-- Rule R122. The mode bit, bit 11 with 1 for this form, is the spec's decision D5 (assumption 8). -/
def Obligations.JsrLinksAndGoesToTheOffset : Prop :=
  (∀ w : Word, w &&& 0xF800 = 0x4800 → decode w = .jsr (w.extractLsb' 0 11)) ∧
  ∀ (off11 : BitVec 11) (s : State), LinksTo (.jsr off11) s (wrap (s.pc + 1) off11.toInt)

/-- Rule R123: the link is written before the base is read, so base R7 falls through. That order is the spec's
decision D6, the mode bit its D5 (assumptions 9 and 8). -/
def Obligations.JsrrLinksAndGoesToTheBaseRegister : Prop :=
  (∀ w : Word, w &&& 0xF800 = 0x4000 → decode w = .jsrr (w.extractLsb' 6 3)) ∧
  ∀ (base : RegIx) (s : State),
    LinksTo (.jsrr base) s (if base = 7 then s.pc + 1 else s.readReg base)

/-! ### Trap and the reserved selectors -/

/-- Rules R130 and R146; the step's result names the trap. The table's base and the vector's place and zero
extension are the spec's decision D7, the result's form its D12 (assumptions 10 and 15). -/
def Obligations.TrapLinksAndGoesThroughTheTable : Prop :=
  (∀ w : Word, w &&& 0xF000 = 0xF000 → decode w = .trap (w.extractLsb' 0 8)) ∧
  ∀ (vec8 : BitVec 8) (s : State),
    LinksTo (.trap vec8) s (s.memRead (BitVec.ofNat 16 vec8.toNat)) ∧
    (decode (s.memRead s.pc) = .trap vec8 → (hostStep s).2 = .executed (.trap vec8))

/-- Rule R131. That PC is unchanged is the spec's decision D8 (assumption 11). -/
def Obligations.Selector1000ReportsIllegalOpcode : Prop :=
  (∀ w : Word, w &&& 0xF000 = 0x8000 → decode w = .res8) ∧
  ∀ s : State, exec .res8 s = .fault (.illegalOpcode (s.memRead s.pc)) ∧ dataAccesses .res8 s = [] ∧
    (s.memRead s.pc &&& 0xF000 = 0x8000 → ReportsIllegal s)

/-- Rule R132. That PC is unchanged is the spec's decision D8 (assumption 11). -/
def Obligations.Selector1101ReportsIllegalOpcode : Prop :=
  (∀ w : Word, w &&& 0xF000 = 0xD000 → decode w = .resd) ∧
  ∀ s : State, exec .resd s = .fault (.illegalOpcode (s.memRead s.pc)) ∧ dataAccesses .resd s = [] ∧
    (s.memRead s.pc &&& 0xF000 = 0xD000 → ReportsIllegal s)

/-! ### The step -/

/-- A step is `exec` of what the Word at PC decodes to, at the same state, with nothing around it: each
meaning commits PC's advance itself, which is the model's arrangement of rule R84 (assumption 5). -/
def Obligations.StepRunsTheDecodedWord : Prop :=
  ∀ (s : State) (i : Instr), decode (s.memRead s.pc) = i → step s = exec i s

/-- The Word that `withFetchWord` places is the one the next step runs, and no other Word is changed. The
placing is the model's stand-in for the host's load (assumption 18). -/
def Obligations.PlacedWordIsTheNextToRun : Prop :=
  ∀ (s : State) (w : Word),
    step (s.withFetchWord 16 w.toNat) = exec (decode w) (s.withFetchWord 16 w.toNat) ∧
    ∀ a, a ≠ s.pc → (s.withFetchWord 16 w.toNat).memRead a = s.memRead a

/-- Rule R145: a step reports `IllegalOpcode` on a reserved selector and does nothing else, and completes on
every other Word. -/
def Obligations.StepCompletesUnlessTheSelectorIsReserved : Prop :=
  ∀ s : State,
    if reservedSelector (s.memRead s.pc) then ReportsIllegal s
    else ∃ t, step s = .next t ∧ (hostStep s).1 = t

/-- Rule R89: the result names the executed instruction, never a placeholder, or carries the reserved Word,
the state then being unchanged. The result's form is the spec's decision D12 (assumption 15). -/
def Obligations.StepResultNamesWhatHappened : Prop :=
  ∀ s : State,
    (∃ t, step s = .next t ∧ (decode (s.memRead s.pc)).isDefined = true ∧
      hostStep s = (t, .executed (decode (s.memRead s.pc)))) ∨
    (reservedSelector (s.memRead s.pc) = true ∧ hostStep s = (s, .illegalOpcode (s.memRead s.pc)))

/-- Rule R18: COND is written by the data-producing forms only, with the flag of the destination register's
new Word; every form but Branch runs the same whatever COND holds. -/
def Obligations.CondIsWrittenByProducersAndReadByBranch : Prop :=
  (∀ (i : Instr) (s t : State), exec i s = .next t →
    (∀ dr, i.dataDest = some dr → FlagOf (t.readReg dr) t.cond) ∧
    (i.dataDest = none → t.cond = s.cond)) ∧
  ∀ (i : Instr) (s : State) (c : Word), i.isBranch = false →
    match exec i s with
    | .next t => exec i (s.setCond c) = .next (if i.dataDest = none then t.setCond c else t)
    | .fault f => exec i (s.setCond c) = .fault f
    | .refused r => exec i (s.setCond c) = .refused r

/-- Rules R12 and R40: a step changes no general register but the one rule R12 names, no Word but one listed
as written, and never both. -/
def Obligations.StepWritesOneRegisterOrOneWord : Prop :=
  ∀ s t : State, step s = .next t →
    (∀ r, (decode s.fetch).writtenReg ≠ some r → t.readReg r = s.readReg r) ∧
    (∀ a, (∀ v, Access.write a v ∉ stepAccesses s) → t.memRead a = s.memRead a) ∧
    ((decode s.fetch).writtenReg ≠ none → ∀ a v, Access.write a v ∉ stepAccesses s) ∧
    ∀ a v b w, Access.write a v ∈ stepAccesses s → Access.write b w ∈ stepAccesses s → a = b ∧ v = w

/-- Rule R40: memory after a step is memory before it with the listed writes made, in order. -/
def Obligations.StepMakesExactlyTheListedWrites : Prop :=
  ∀ s t : State, step s = .next t → t.mem = s.mem.replay (stepAccesses s)

/-- Rule R40, the reads: two states with the same registers that hold the same Word at every address listed
as read have the same accesses and the same outcome but for memory. -/
def Obligations.StepDependsOnNoOtherWordThanTheListed : Prop :=
  ∀ s t : State, SameRegisters s t →
    (∀ a, Access.read a ∈ stepAccesses s → s.memRead a = t.memRead a) →
    stepAccesses t = stepAccesses s ∧ SameButMemory (step s) (step t)

/-- Rule R84: every form but Branch, Jump, JSR, JSRR, Trap and the placeholders leaves PC at the next
Word. -/
def Obligations.OnlyTransfersLeaveTheNextWord : Prop :=
  ∀ (i : Instr) (s : State), i.isTransfer = false → i.isDefined = true →
    ∃ t, exec i s = .next t ∧ t.pc = s.pc + 1

/-- Rules R39 and R171: a Word stored by an instruction is the one a step at its address runs next. -/
def Obligations.StoredWordIsSeenByTheNextFetch : Prop :=
  ∀ (i : Instr) (s t : State) (a v : Word), exec i s = .next t → Access.write a v ∈ dataAccesses i s →
    t.memRead a = v ∧ step (t.setPc a) = exec (decode v) (t.setPc a)

/-! ### Composed effects the rules point out -/

/-- Rule R148: after a link, `JMP R7` goes to the Word after the linking instruction and restores nothing
else. -/
def Obligations.JumpR7ReturnsToAfterTheLink : Prop :=
  ∀ (i : Instr) (s : State), i.writtenReg = some linkReg → i.isTransfer = true →
    ∃ t u, exec i s = .next t ∧ exec (.jmp 7) t = .next u ∧ u.pc = s.pc + 1 ∧ u.cond = t.cond ∧
      u.x = t.x ∧ u.mem = t.mem

/-- Rule R104, corner cases: NOT twice restores the register, and NOT then ADD 1 negates it. -/
def Obligations.NotTwiceRestoresAndNotAddOneNegates : Prop :=
  ∀ (r : RegIx) (s : State), ∃ t u v,
    exec (.not r r) s = .next t ∧ exec (.not r r) t = .next u ∧ u.readReg r = s.readReg r ∧
    exec (.addi r r 1) t = .next v ∧ v.readReg r = 0 - s.readReg r

/-- Spec/90_conflicts.md C7 and vector S5: a Word stored with offset `k` is loaded by the next instruction
with offset `k - 1`, for every `k` from -255 to 255 and from every address. -/
def Obligations.StoreThenLoadGivesTheStoredWord : Prop :=
  ∀ (s : State) (r q : RegIx) (k : Int), -255 ≤ k → k ≤ 255 →
    ∃ t u, exec (.st r (BitVec.ofInt 9 k)) s = .next t ∧
      exec (.ld q (BitVec.ofInt 9 (k - 1))) t = .next u ∧ u.readReg q = s.readReg r

/-- Rules R33 and R34: a store into the trap vector table is made, and the trap of that vector then goes to
the stored address. -/
def Obligations.StoreIntoTheTrapTableRedirectsTheTrap : Prop :=
  ∀ (s : State) (r base : RegIx) (off6 : BitVec 6) (vec8 : BitVec 8),
    s.eaBase base off6 = BitVec.ofNat 16 vec8.toNat →
    ∃ t u, exec (.str r base off6) s = .next t ∧ exec (.trap vec8) t = .next u ∧ u.pc = s.readReg r

/-! ### Reset and the invariant -/

/-- Rules R25, R26 and R27: what reset leaves; as long as COND is 0x0000 no branch is taken whatever its mask (rule
R120 corner (b)), and no instruction but a data-producing one changes that (rule R18). That no flag is set at reset,
so that no branch is taken, is the spec's decision D4 (assumption 7). -/
def Obligations.ResetLeavesEverythingZero : Prop :=
  (∀ r, State.reset.readReg r = 0x0000) ∧ State.reset.pc = 0x0000 ∧ State.reset.cond = 0x0000 ∧
  (∀ a, State.reset.memRead a = 0x0000) ∧
  ∀ s : State, s.cond = 0x0000 →
    (∀ n z p off9, GoesTo (.br n z p off9) s (s.pc + 1)) ∧
    ∀ (i : Instr) (t : State), i.dataDest = none → exec i s = .next t → t.cond = 0x0000

/-- Rule R27: every Word is zero at reset and decodes as the never-taken Branch, so that the machine stepped from
reset without a load counts PC up for ever, wrapping, and changes nothing else. That PC wraps is the spec's
decision D9 (assumption 12). -/
def Obligations.UnloadedMachineOnlyCountsPc : Prop :=
  (∀ a, State.reset.memRead a = 0x0000) ∧ decode 0x0000 = .br false false false 0 ∧
  ∀ k : Nat, core.run k State.reset = .next (State.reset.setPc (BitVec.ofNat 16 k))

/-- The reset state meets the invariant (assumption 2 for memory's canonical form). -/
def Obligations.ResetMeetsTheInvariant : Prop := State.reset.Inv

/-- From every state that meets the invariant (memory canonical, COND one of 0, 1, 2, 4), a step leads to
such a state. The canonical form is the model's own (assumption 2). -/
def Obligations.StepKeepsTheInvariant : Prop :=
  ∀ s t : State, s.Inv → step s = .next t → t.Inv

/-- Rule R17: no flag at reset, exactly one from the first data-producing instruction on as long as only the
hardware writes COND, and never a value but 0, 1, 2 or 4; the host can write any Word. The three values are the
spec's decision D3, reset to none of them its D4 (assumptions 6 and 7). -/
def Obligations.OneFlagIsSetFromTheFirstProducerOn : Prop :=
  (∀ c : Word, condOneFlag c = true ↔ c = 0x0001 ∨ c = 0x0002 ∨ c = 0x0004) ∧ State.reset.cond = 0x0000 ∧
  (∀ s t : State, step s = .next t →
    ((decode s.fetch).dataDest ≠ none → condOneFlag t.cond = true) ∧
    (condOneFlag s.cond = true → condOneFlag t.cond = true) ∧
    (condReachable s.cond = true → condReachable t.cond = true)) ∧
  ∀ (s : State) (v : Word), (hostApply (.regWrite .cond v) s).1.cond = v

/-- Memory in canonical form is determined by what its addresses read as. The canonical form is the model's
own (assumption 2). -/
def Obligations.CanonicalMemoriesThatReadAlikeAreEqual : Prop :=
  ∀ m m' : Memory, m.wf → m'.wf → (∀ a : Word, m.read a = m'.read a) → m = m'

/-! ### The host interface -/

/-- Rule R163: a block that fits is copied and nothing else is changed; one that does not fit changes
nothing. The bound and all-or-nothing are the spec's decision D13 (assumption 16). -/
def Obligations.LoadIsAllOrNothing : Prop :=
  ∀ (block : List Word) (offset : Word) (s : State),
    if offset.toNat + block.length ≤ 65536 then
      ∃ t, hostApply (.load block offset) s = (t, .done) ∧ SameRegisters s t ∧
        (∀ (i : Nat) (h : i < block.length), t.memRead (BitVec.ofNat 16 (offset.toNat + i)) = block[i]) ∧
        ∀ a : Word, (a.toNat < offset.toNat ∨ offset.toNat + block.length ≤ a.toNat) →
          t.memRead a = s.memRead a
    else hostApply (.load block offset) s = (s, .outOfBoundsLoad)

/-- Rule R165: each of the ten slots and each address reads back what the host wrote there, every other slot
and address as before, and a read changes nothing. That the host has these operations is the spec's decision
D15 (assumption 15). -/
def Obligations.HostReadsBackWhatItWrote : Prop :=
  (∀ (s : State) (r : Slot) (v : Word), ∃ t, hostApply (.regWrite r v) s = (t, .done) ∧
    hostApply (.regRead r) t = (t, .word v) ∧
    (∀ q, q ≠ r → hostApply (.regRead q) t = (t, .word (s.readSlot q))) ∧
    ∀ a, hostApply (.memRead a) t = (t, .word (s.memRead a))) ∧
  ∀ (s : State) (a v : Word), ∃ t, hostApply (.memWrite a v) s = (t, .done) ∧
    hostApply (.memRead a) t = (t, .word v) ∧
    (∀ b, b ≠ a → hostApply (.memRead b) t = (t, .word (s.memRead b))) ∧
    ∀ q, hostApply (.regRead q) t = (t, .word (s.readSlot q))

/-- Rule R162: after reset and a boot that loads one block that fits and sets the entry point, PC is the entry
point, the block is in memory, and everything else is zero. The order of the operations is the model's choice of
those rule R162 allows (assumption 21); the load's bound is the spec's decision D13, the write of PC its D15
(assumptions 16 and 15). -/
def Obligations.BootLeavesTheProgramAndTheEntryPoint : Prop :=
  ∀ (origin entry : Word) (block : List Word), origin.toNat + block.length ≤ 65536 →
    ∃ t, (hostScript (bootScript [(origin, block)] entry []) State.reset).1 = t ∧ t.pc = entry ∧
      t.cond = 0x0000 ∧ (∀ r, t.readReg r = 0x0000) ∧
      (∀ (i : Nat) (h : i < block.length), t.memRead (BitVec.ofNat 16 (origin.toNat + i)) = block[i]) ∧
      ∀ a : Word, (a.toNat < origin.toNat ∨ origin.toNat + block.length ≤ a.toNat) → t.memRead a = 0x0000

/-- Rule R17 and entry U10: every host operation keeps the invariant, if it writes COND only with 0, 1, 2
or 4. Memory's canonical form is the model's own (assumption 2), the host operations are the spec's decision D15
(assumption 15). -/
def Obligations.HostOperationsKeepTheInvariant : Prop :=
  ∀ (op : HostOp) (s : State), op.condLegal = true → s.Inv → (hostApply op s).1.Inv

/-- Rule R168: a run that was stopped by its stopping rule is at the state after that many steps, its last
result meets the rule and no earlier one does. The stopping rule is the spec's open parameter `STOP`, here any
one at all (assumption 17). -/
def Obligations.RunEndsAtTheFirstResultThatStops : Prop :=
  ∀ (stop : StepResult → Bool) (budget : Nat) (s t : State) (k : Nat) (r : StepResult),
    hostRun stop budget s = (t, k, some r) →
    1 ≤ k ∧ k ≤ budget ∧ t = afterSteps k s ∧ r = (hostStep (afterSteps (k - 1) s)).2 ∧ stop r = true ∧
    ∀ j, j + 1 < k → stop (hostStep (afterSteps j s)).2 = false

/-- Rule R167: an operation on one Machine does to it what it would do alone and leaves every other as it
was. -/
def Obligations.MachinesDoNotInteract : Prop :=
  ∀ (k : Nat) (op : HostOp) (ms : List State) (j : Nat),
    (machinesApply k op ms).1[j]? =
      if j = k then ms[j]?.map (fun s => (hostApply op s).1) else ms[j]?
end

