-- ==== Sys2Proof/Laws/Bits.lean ====
section
/-! SUPPORT. Bits and fields of a Word: what `bit` sees of a literal, an OR and a placed field, and how a
field is known from its bits. Decoding and encoding meet through these. -/

namespace Sys2Proof.Laws

theorem bit_eq_getLsbD (w : Word) (k : Nat) : bit w k = w.getLsbD k := rfl

theorem bit_ofNat (x k : Nat) : bit (BitVec.ofNat 16 x) k = (decide (k < 16) && x.testBit k) := by
  simp only [bit, BitVec.getLsbD_ofNat]

@[simp] theorem bit_or (a b : Word) (k : Nat) : bit (a ||| b) k = (bit a k || bit b k) := by
  simp [bit]

@[simp] theorem bit_and (a b : Word) (k : Nat) : bit (a &&& b) k = (bit a k && bit b k) := by
  simp [bit]

@[simp] theorem bit_xor (a b : Word) (k : Nat) : bit (a ^^^ b) k = (bit a k ^^ bit b k) := by
  simp [bit]

@[simp] theorem bit_not (a : Word) (k : Nat) : bit (~~~a) k = (decide (k < 16) && !bit a k) := by
  simp [bit]

/-- What a Word's bits are where it matches a pattern under a mask. -/
theorem bit_of_match (w mask pattern : Word) (h : w &&& mask = pattern) (k : Nat) :
    (bit w k && bit mask k) = bit pattern k := by rw [← bit_and, h]

theorem bit_of_ge (w : Word) (k : Nat) (h : 16 ≤ k) : bit w k = false :=
  BitVec.getLsbD_of_ge w k h

@[simp] theorem bit_place {n : Nat} (f : BitVec n) (lo k : Nat) :
    bit (place f lo) k = (decide (k < 16) && decide (lo ≤ k) && f.getLsbD (k - lo)) := by
  simp only [bit, place, BitVec.getLsbD_shiftLeft, BitVec.getLsbD_setWidth]
  by_cases h : k < 16
  · have h' : k - lo < 16 := by omega
    by_cases h'' : lo ≤ k
    · simp [h, h', h'', Nat.not_lt.2 h'']
    · simp [h, h'', Nat.lt_of_not_le h'']
  · simp [h]

@[simp] theorem bit_placeBit (b : Bool) (lo k : Nat) :
    bit (placeBit b lo) k = (decide (k < 16) && decide (k = lo) && b) := by
  by_cases h : k = lo
  · subst h; simp [placeBit]
  · by_cases h' : lo ≤ k
    · have : k - lo ≠ 0 := by omega
      simp [placeBit, BitVec.getLsbD_ofBool, h, this]
    · simp [placeBit, h, h']

/-- Two Words with the same sixteen bits are the same Word. -/
theorem word_ext (a b : Word) (h : ∀ k < 16, bit a k = bit b k) : a = b :=
  BitVec.eq_of_getLsbD_eq h

/-- A field is known from the Word's bits it is made of. -/
theorem getLsbD_field (w : Word) (lo n j : Nat) :
    (field w lo n).getLsbD j = (decide (j < n) && bit w (lo + j)) := by
  simp [field, bit]

@[simp] theorem getElem_field (w : Word) (lo n j : Nat) (h : j < n) : (field w lo n)[j] = bit w (lo + j) := by
  simp [field, bit]

theorem field_eq {n : Nat} (w : Word) (lo : Nat) (f : BitVec n)
    (h : ∀ j < n, bit w (lo + j) = f.getLsbD j) : field w lo n = f :=
  BitVec.eq_of_getLsbD_eq fun j hj => by rw [getLsbD_field, h j hj, decide_eq_true hj, Bool.true_and]

/-- What `decode` answers, by the bits it dispatches on, the selector's first. -/
theorem decode_by_bits (w : Word) : decode w =
    bif bit w 15 then
      bif bit w 14 then
        bif bit w 13 then
          bif bit w 12 then .trap (field w 0 8) else .lea (regHi w) (field w 0 9)
        else bif bit w 12 then .resd else .jmp (regMid w)
      else bif bit w 13 then
        bif bit w 12 then .sti (regHi w) (field w 0 9) else .ldi (regHi w) (field w 0 9)
      else bif bit w 12 then .not (regHi w) (regMid w) else .res8
    else bif bit w 14 then
      bif bit w 13 then
        bif bit w 12 then .str (regHi w) (regMid w) (field w 0 6)
        else .ldr (regHi w) (regMid w) (field w 0 6)
      else bif bit w 12 then
        bif bit w 5 then .andi (regHi w) (regMid w) (field w 0 5)
        else .and (regHi w) (regMid w) (regLo w)
      else bif bit w 11 then .jsr (field w 0 11) else .jsrr (regMid w)
    else bif bit w 13 then
      bif bit w 12 then .st (regHi w) (field w 0 9) else .ld (regHi w) (field w 0 9)
    else bif bit w 12 then
      bif bit w 5 then .addi (regHi w) (regMid w) (field w 0 5) else .add (regHi w) (regMid w) (regLo w)
    else .br (bit w 11) (bit w 10) (bit w 9) (field w 0 9) := by
  unfold decode
  cases bit w 15 <;> cases bit w 14 <;> cases bit w 13 <;> cases bit w 12 <;> simp [cond_eq_ite]

end Sys2Proof.Laws
end

