-- ==== Sys2Proof/Laws/State.lean ====
section
/-! SUPPORT. One lemma per field per update of State, so that no later proof unfolds a record update; then
the register file's read after write (rule R165) and the same lemmas for the composed updates. -/

namespace Sys2Proof.Laws

open Sys2Proof.Machine

/-! ### setPc -/

@[simp] theorem setPc_x (s : State) (v : Word) : (s.setPc v).x = s.x := rfl
@[simp] theorem setPc_pc (s : State) (v : Word) : (s.setPc v).pc = v := rfl
@[simp] theorem setPc_cond (s : State) (v : Word) : (s.setPc v).cond = s.cond := rfl
@[simp] theorem setPc_mem (s : State) (v : Word) : (s.setPc v).mem = s.mem := rfl
@[simp] theorem setPc_readReg (s : State) (v : Word) (i : RegIx) :
    (s.setPc v).readReg i = s.readReg i := rfl
@[simp] theorem setPc_memRead (s : State) (v a : Word) : (s.setPc v).memRead a = s.memRead a := rfl

/-! ### setCond -/

@[simp] theorem setCond_x (s : State) (v : Word) : (s.setCond v).x = s.x := rfl
@[simp] theorem setCond_pc (s : State) (v : Word) : (s.setCond v).pc = s.pc := rfl
@[simp] theorem setCond_cond (s : State) (v : Word) : (s.setCond v).cond = v := rfl
@[simp] theorem setCond_mem (s : State) (v : Word) : (s.setCond v).mem = s.mem := rfl
@[simp] theorem setCond_readReg (s : State) (v : Word) (i : RegIx) :
    (s.setCond v).readReg i = s.readReg i := rfl
@[simp] theorem setCond_memRead (s : State) (v a : Word) : (s.setCond v).memRead a = s.memRead a := rfl

/-! ### writeReg -/

@[simp] theorem writeReg_pc (s : State) (i : RegIx) (v : Word) : (s.writeReg i v).pc = s.pc := rfl
@[simp] theorem writeReg_cond (s : State) (i : RegIx) (v : Word) : (s.writeReg i v).cond = s.cond := rfl
@[simp] theorem writeReg_mem (s : State) (i : RegIx) (v : Word) : (s.writeReg i v).mem = s.mem := rfl
@[simp] theorem writeReg_memRead (s : State) (i : RegIx) (v a : Word) :
    (s.writeReg i v).memRead a = s.memRead a := rfl

@[simp] theorem writeReg_readReg_same (s : State) (i : RegIx) (v : Word) :
    (s.writeReg i v).readReg i = v := by
  simp [State.readReg, State.writeReg]

theorem writeReg_readReg_ne (s : State) (i j : RegIx) (v : Word) (h : j ≠ i) :
    (s.writeReg i v).readReg j = s.readReg j := by
  have : i.toNat ≠ j.toNat := fun e => h (BitVec.eq_of_toNat_eq e.symm)
  simp [State.readReg, State.writeReg, this]

/-- What any register reads after one is written. -/
theorem writeReg_readReg (s : State) (i j : RegIx) (v : Word) :
    (s.writeReg i v).readReg j = if j = i then v else s.readReg j := by
  split
  · next h => subst h; simp
  · next h => exact writeReg_readReg_ne s i j v h

/-! ### memWrite -/

@[simp] theorem memWrite_x (s : State) (a v : Word) : (s.memWrite a v).x = s.x := rfl
@[simp] theorem memWrite_pc (s : State) (a v : Word) : (s.memWrite a v).pc = s.pc := rfl
@[simp] theorem memWrite_cond (s : State) (a v : Word) : (s.memWrite a v).cond = s.cond := rfl
@[simp] theorem memWrite_mem (s : State) (a v : Word) : (s.memWrite a v).mem = s.mem.write a v := rfl
@[simp] theorem memWrite_readReg (s : State) (a v : Word) (i : RegIx) :
    (s.memWrite a v).readReg i = s.readReg i := rfl

/-! ### advance, setcc, produce, link -/

@[simp] theorem advance_x (s : State) : s.advance.x = s.x := rfl
@[simp] theorem advance_pc (s : State) : s.advance.pc = s.npc := rfl
@[simp] theorem advance_cond (s : State) : s.advance.cond = s.cond := rfl
@[simp] theorem advance_mem (s : State) : s.advance.mem = s.mem := rfl
@[simp] theorem advance_readReg (s : State) (i : RegIx) : s.advance.readReg i = s.readReg i := rfl
@[simp] theorem advance_memRead (s : State) (a : Word) : s.advance.memRead a = s.memRead a := rfl

@[simp] theorem setcc_pc (s : State) (v : Word) : (s.setcc v).pc = s.pc := rfl
@[simp] theorem setcc_cond (s : State) (v : Word) : (s.setcc v).cond = ccOf v := rfl
@[simp] theorem setcc_mem (s : State) (v : Word) : (s.setcc v).mem = s.mem := rfl
@[simp] theorem setcc_readReg (s : State) (v : Word) (i : RegIx) :
    (s.setcc v).readReg i = s.readReg i := rfl

@[simp] theorem produce_pc (s : State) (i : RegIx) (v : Word) : (s.produce i v).pc = s.pc := rfl
@[simp] theorem produce_cond (s : State) (i : RegIx) (v : Word) : (s.produce i v).cond = ccOf v := rfl
@[simp] theorem produce_mem (s : State) (i : RegIx) (v : Word) : (s.produce i v).mem = s.mem := rfl
@[simp] theorem produce_memRead (s : State) (i : RegIx) (v a : Word) :
    (s.produce i v).memRead a = s.memRead a := rfl

@[simp] theorem produce_readReg_same (s : State) (i : RegIx) (v : Word) :
    (s.produce i v).readReg i = v := writeReg_readReg_same s i v

theorem produce_readReg_ne (s : State) (i j : RegIx) (v : Word) (h : j ≠ i) :
    (s.produce i v).readReg j = s.readReg j := writeReg_readReg_ne s i j v h

@[simp] theorem link_pc (s : State) : s.link.pc = s.npc := rfl
@[simp] theorem link_cond (s : State) : s.link.cond = s.cond := rfl
@[simp] theorem link_mem (s : State) : s.link.mem = s.mem := rfl
@[simp] theorem link_memRead (s : State) (a : Word) : s.link.memRead a = s.memRead a := rfl
@[simp] theorem link_readReg_link (s : State) : s.link.readReg linkReg = s.npc :=
  writeReg_readReg_same s.advance linkReg s.npc

theorem link_readReg_ne (s : State) (j : RegIx) (h : j ≠ linkReg) : s.link.readReg j = s.readReg j :=
  writeReg_readReg_ne s.advance linkReg j s.npc h

/-! ### the ten slots -/

/-- Rule R165: reading the slot just written gives the value written. -/
@[simp] theorem writeSlot_readSlot_same (s : State) (r : Slot) (v : Word) :
    (s.writeSlot r v).readSlot r = v := by
  cases r <;> simp [State.writeSlot, State.readSlot]

/-- Every other slot reads as before. -/
theorem writeSlot_readSlot_ne (s : State) (r q : Slot) (v : Word) (h : q ≠ r) :
    (s.writeSlot r v).readSlot q = s.readSlot q := by
  cases r <;> cases q <;> simp_all [State.writeSlot, State.readSlot, writeReg_readReg_ne]

@[simp] theorem writeSlot_mem (s : State) (r : Slot) (v : Word) : (s.writeSlot r v).mem = s.mem := by
  cases r <;> rfl

end Sys2Proof.Laws
end

