-- ==== Sys2Proof/Laws/Memory.lean ====
section
/-! SUPPORT. Memory's read after write, for every memory and not only a canonical one (rules R32, R33), and
the canonical form that every memory operation keeps. -/

namespace Sys2Proof.Laws

open Sys2Proof.Machine

/-! ### Reading after an update -/

theorem get_erase (m : Memory) (a b : Nat) :
    (m.erase a).get b = if b = a then Config.resetWord else m.get b := by
  induction m with
  | nil => simp [Memory.erase, Memory.get]
  | cons c m ih =>
    have e : Memory.erase (c :: m) a = if c.1 = a then Memory.erase m a else c :: Memory.erase m a := by
      by_cases h : c.1 = a <;> simp [Memory.erase, h]
    rw [e]
    by_cases h : c.1 = a <;> by_cases h' : b = a <;> simp_all [Memory.get]
    · intro hb; exact absurd hb.symm h'

theorem get_insert (m : Memory) (a b : Nat) (v : Word) (h : ∀ c ∈ m, c.1 ≠ a) :
    (m.insert a v).get b = if b = a then v else m.get b := by
  induction m with
  | nil => by_cases e : a = b <;> simp [Memory.insert, Memory.get, e, eq_comm]
  | cons c m ih =>
    have hc : c.1 ≠ a := h c (by simp)
    have hm := ih fun d hd => h d (by simp [hd])
    by_cases e : a < c.1
    · by_cases e' : b = a
      · simp [Memory.insert, Memory.get, e, e']
      · simp [Memory.insert, Memory.get, e, e', Ne.symm e']
    · by_cases e' : c.1 = b
      · subst e'
        simp [Memory.insert, Memory.get, e, hc]
      · simp [Memory.insert, Memory.get, e, e', hm]

theorem mem_erase (m : Memory) (a : Nat) (c : Cell) : c ∈ m.erase a ↔ c ∈ m ∧ c.1 ≠ a := by
  simp [Memory.erase]

/-- What any address reads as after one Word is set. -/
theorem get_set (m : Memory) (a b : Nat) (v : Word) :
    (m.set a v).get b = if b = a then v else m.get b := by
  unfold Memory.set
  split
  · next h => subst h; rw [get_erase]
  · rw [get_insert _ _ _ _ fun c hc => ((mem_erase m a c).1 hc).2, get_erase]
    split <;> rfl

/-- Rules R32 and R33: what any address reads as after a write. -/
theorem read_write (m : Memory) (a b v : Word) :
    (m.write a v).read b = if b = a then v else m.read b := by
  simp only [Memory.read, Memory.write, get_set, BitVec.toNat_inj]

@[simp] theorem read_write_same (m : Memory) (a v : Word) : (m.write a v).read a = v := by
  simp [read_write]

theorem read_write_ne (m : Memory) (a b v : Word) (h : b ≠ a) : (m.write a v).read b = m.read b := by
  simp [read_write, h]

/-- Rules R27 and R28: reset memory reads as the reset Word everywhere. -/
@[simp] theorem read_nil (a : Word) : Memory.read [] a = Config.resetWord := rfl

theorem memRead_memWrite (s : State) (a b v : Word) :
    (s.memWrite a v).memRead b = if b = a then v else s.memRead b := read_write s.mem a b v

/-! ### The canonical form -/

theorem wf_nil : Memory.wf [] := by simp [Memory.wf]

theorem wf_erase (m : Memory) (a : Nat) (h : m.wf) : (m.erase a).wf :=
  ⟨h.1.filter _, fun c hc => h.2 c ((mem_erase m a c).1 hc).1⟩

theorem mem_insert (m : Memory) (a : Nat) (v : Word) (c : Cell) :
    c ∈ m.insert a v ↔ c = (a, v) ∨ c ∈ m := by
  induction m with
  | nil => simp [Memory.insert]
  | cons d m ih =>
    by_cases e : a < d.1
    · simp [Memory.insert, e]
    · simp only [Memory.insert, e, if_false, List.mem_cons, ih]
      tauto

theorem pairwise_insert (m : Memory) (a : Nat) (v : Word) (hp : m.Pairwise fun c d => c.1 < d.1)
    (ha : ∀ c ∈ m, c.1 ≠ a) : (m.insert a v).Pairwise fun c d => c.1 < d.1 := by
  induction m with
  | nil => simp [Memory.insert]
  | cons d m ih =>
    obtain ⟨hd, hm⟩ := List.pairwise_cons.1 hp
    by_cases e : a < d.1
    · simp only [Memory.insert, e, if_true]
      refine List.pairwise_cons.2 ⟨fun c hc => ?_, hp⟩
      rcases List.mem_cons.1 hc with rfl | hc
      · exact e
      · exact lt_trans e (hd c hc)
    · simp only [Memory.insert, e, if_false]
      refine List.pairwise_cons.2 ⟨fun c hc => ?_, ih hm fun c hc => ha c (by simp [hc])⟩
      rcases (mem_insert m a v c).1 hc with rfl | hc
      · exact lt_of_le_of_ne (not_lt.1 e) (ha d (by simp))
      · exact hd c hc

theorem wf_insert (m : Memory) (a : Nat) (v : Word) (h : m.wf) (ha : ∀ c ∈ m, c.1 ≠ a)
    (hb : a < Config.memWords) (hv : v ≠ Config.resetWord) : (m.insert a v).wf :=
  ⟨pairwise_insert m a v h.1 ha, fun c hc => by
    rcases (mem_insert m a v c).1 hc with rfl | hc
    · exact ⟨hb, hv⟩
    · exact h.2 c hc⟩

theorem wf_set (m : Memory) (a : Nat) (v : Word) (h : m.wf) (hb : a < Config.memWords) :
    (m.set a v).wf := by
  unfold Memory.set
  split
  · exact wf_erase m a h
  · next hv => exact wf_insert _ a v (wf_erase m a h) (fun c hc => ((mem_erase m a c).1 hc).2) hb hv

/-- A write keeps the canonical form. -/
theorem wf_write (m : Memory) (a v : Word) (h : m.wf) : (m.write a v).wf :=
  wf_set m a.toNat v h a.isLt

/-- A block load keeps the canonical form. -/
theorem wf_writeBlock (m : Memory) (a : Word) (vs : List Word) (h : m.wf) : (m.writeBlock a vs).wf := by
  induction vs generalizing m a with
  | nil => exact h
  | cons v vs ih => exact ih _ _ (wf_write m a v h)

theorem wf_reset : State.reset.mem.wf := wf_nil

end Sys2Proof.Laws
end

