-- ==== Sys2Proof/Laws/Exec.lean ====
section
/-! SUPPORT. What each shared operation does, said once, and the one inversion lemma of `exec`: a defined
instruction answers a next state in one of four shapes, a placeholder reports `IllegalOpcode`. -/

namespace Sys2Proof.Laws

open Sys2Proof.Machine

/-- The condition-flag generator by the sign of the Word. -/
theorem ccOf_cases (v : Word) :
    (v.toInt < 0 ∧ ccOf v = condN) ∨ (v = 0 ∧ ccOf v = condZ) ∨ (0 < v.toInt ∧ ccOf v = condP) := by
  have hb : v.getLsbD 15 = decide (32768 ≤ v.toNat) := by
    have := BitVec.msb_eq_decide v
    rwa [BitVec.msb_eq_getLsbD_last] at this
  have hi := BitVec.toInt_eq_toNat_cond v
  have hl := v.isLt
  unfold ccOf
  by_cases h : 32768 ≤ v.toNat
  · left; simp only [hb, h, decide_true, if_true, and_true]; omega
  · by_cases h' : v = 0
    · right; left; subst h'; decide
    · have h0 : v.toNat ≠ 0 := fun e => h' (BitVec.eq_of_toNat_eq (by simpa using e))
      right; right; simp only [hb, h, decide_false, h']; simp; omega

/-- `ccOf` always sets exactly one flag. -/
theorem ccOf_one (v : Word) : ccOf v = condN ∨ ccOf v = condZ ∨ ccOf v = condP := by
  rcases ccOf_cases v with h | h | h <;> simp [h.2]

/-- All that an instruction ending in `produce` does. -/
theorem produce_spec (s : State) (dr : RegIx) (v : Word) :
    (s.advance.produce dr v).readReg dr = v ∧ (s.advance.produce dr v).cond = ccOf v ∧
    (s.advance.produce dr v).pc = s.npc ∧ (s.advance.produce dr v).mem = s.mem ∧
    ∀ r, r ≠ dr → (s.advance.produce dr v).readReg r = s.readReg r :=
  ⟨produce_readReg_same _ _ _, rfl, rfl, rfl, fun r h => produce_readReg_ne s.advance dr r v h⟩

/-- All that a storing instruction does. -/
theorem store_spec (s : State) (a v : Word) :
    (s.advance.memWrite a v).memRead a = v ∧ (s.advance.memWrite a v).cond = s.cond ∧
    (s.advance.memWrite a v).pc = s.npc ∧ (s.advance.memWrite a v).x = s.x ∧
    ∀ b, b ≠ a → (s.advance.memWrite a v).memRead b = s.memRead b :=
  ⟨read_write_same _ _ _, rfl, rfl, rfl, fun b h => read_write_ne s.mem a b v h⟩

/-- All that linking does. -/
theorem link_spec (s : State) :
    s.link.readReg linkReg = s.npc ∧ s.link.cond = s.cond ∧ s.link.pc = s.npc ∧ s.link.mem = s.mem ∧
    ∀ r, r ≠ linkReg → s.link.readReg r = s.readReg r :=
  ⟨link_readReg_link s, rfl, rfl, rfl, fun r h => link_readReg_ne s r h⟩

/-- All that trap entry does (rule R146). -/
theorem enterTrap_spec (s : State) (e : Word) :
    (s.enterTrap e).pc = s.memRead e ∧ (s.enterTrap e).readReg linkReg = s.npc ∧
    (s.enterTrap e).cond = s.cond ∧ (s.enterTrap e).mem = s.mem ∧
    ∀ r, r ≠ linkReg → (s.enterTrap e).readReg r = s.readReg r :=
  ⟨rfl, link_readReg_link s, rfl, rfl, fun r h => link_readReg_ne s r h⟩

/-- All that a jump to a register does. -/
theorem jumpTo_spec (s : State) (b : RegIx) :
    (s.jumpTo b).pc = s.readReg b ∧ (s.jumpTo b).x = s.x ∧ (s.jumpTo b).cond = s.cond ∧
    (s.jumpTo b).mem = s.mem := ⟨rfl, rfl, rfl, rfl⟩

/-- All that the reported condition does. -/
theorem raiseIllegalOpcode_spec (s : State) :
    raiseIllegalOpcode s = .fault (.illegalOpcode (s.memRead s.pc)) := rfl

/-- The inversion lemma of `exec`, by the effect's shape. -/
theorem exec_shape (i : Instr) (s : State) :
    (∃ dr v, i.dataDest = some dr ∧ exec i s = .next (s.advance.produce dr v)) ∨
    (∃ a v, i.writtenReg = none ∧ i.isTransfer = false ∧ i.isDefined = true ∧
      exec i s = .next (s.advance.memWrite a v)) ∨
    (∃ p, i.writtenReg = none ∧ i.isTransfer = true ∧ exec i s = .next (s.setPc p)) ∨
    (∃ p, i.dataDest = none ∧ i.writtenReg = some linkReg ∧ i.isTransfer = true ∧
      exec i s = .next (s.link.setPc p)) ∨
    (i.isDefined = false ∧ exec i s = raiseIllegalOpcode s) := by
  cases i with
  | add dr a b => exact .inl ⟨dr, _, rfl, rfl⟩
  | addi dr a v => exact .inl ⟨dr, _, rfl, rfl⟩
  | and dr a b => exact .inl ⟨dr, _, rfl, rfl⟩
  | andi dr a v => exact .inl ⟨dr, _, rfl, rfl⟩
  | not dr a => exact .inl ⟨dr, _, rfl, rfl⟩
  | ld dr o => exact .inl ⟨dr, _, rfl, rfl⟩
  | ldi dr o => exact .inl ⟨dr, _, rfl, rfl⟩
  | ldr dr b o => exact .inl ⟨dr, _, rfl, rfl⟩
  | lea dr o => exact .inl ⟨dr, _, rfl, rfl⟩
  | st r o => exact .inr (.inl ⟨_, _, rfl, rfl, rfl, rfl⟩)
  | sti r o => exact .inr (.inl ⟨_, _, rfl, rfl, rfl, rfl⟩)
  | str r b o => exact .inr (.inl ⟨_, _, rfl, rfl, rfl, rfl⟩)
  | br n z p o =>
    refine .inr (.inr (.inl ⟨if branchTaken n z p s.cond then s.eaPc9 o else s.npc, rfl, rfl, ?_⟩))
    simp only [exec, execBr, State.advance]
    split <;> rfl
  | jmp b => exact .inr (.inr (.inl ⟨_, rfl, rfl, rfl⟩))
  | jsr o => exact .inr (.inr (.inr (.inl ⟨_, rfl, rfl, rfl, rfl⟩)))
  | jsrr b => exact .inr (.inr (.inr (.inl ⟨_, rfl, rfl, rfl, rfl⟩)))
  | trap v => exact .inr (.inr (.inr (.inl ⟨_, rfl, rfl, rfl, rfl⟩)))
  | res8 => exact .inr (.inr (.inr (.inr ⟨rfl, rfl⟩)))
  | resd => exact .inr (.inr (.inr (.inr ⟨rfl, rfl⟩)))

/-- A step is `exec` of the Word at PC, decoded. -/
theorem step_def (s : State) : step s = exec (decode (s.memRead s.pc)) s := rfl

/-- The Word placed by `withFetchWord` is the next one fetched. -/
@[simp] theorem withFetchWord_fetch (s : State) (nbits w : Nat) :
    (s.withFetchWord nbits w).fetch = BitVec.ofNat 16 (w % 2 ^ nbits) :=
  read_write_same s.mem s.pc _

end Sys2Proof.Laws
end

