-- ==== Sys2Proof/Laws/PerInstr.lean ====
section
/-! SUPPORT. Statements made per instruction: an instruction's Word lies in its own row of the opcode map
(rule R62). -/

namespace Sys2Proof.Laws.EncodedInRow

/-- The encoder's Word for an instruction has the row's fixed bits. -/
def Statement (i : Instr) : Prop := encode i &&& i.row.mask = i.row.pattern

theorem fixed_bits (w mask pattern : Word)
    (h : ∀ k < 16, (bit w k && bit mask k) = bit pattern k) : w &&& mask = pattern :=
  word_ext _ _ fun k hk => by rw [bit_and]; exact h k hk

theorem br (n : Bool) (z : Bool) (p : Bool) (o : BitVec 9) : Statement (.br n z p o) :=
  fixed_bits _ _ _ fun k hk => by
    interval_cases k <;> simp [encode, Instr.row, bit_ofNat, Nat.testBit]

theorem add (d : RegIx) (a : RegIx) (b : RegIx) : Statement (.add d a b) :=
  fixed_bits _ _ _ fun k hk => by
    interval_cases k <;> simp [encode, Instr.row, bit_ofNat, Nat.testBit]

theorem addi (d : RegIx) (a : RegIx) (v : BitVec 5) : Statement (.addi d a v) :=
  fixed_bits _ _ _ fun k hk => by
    interval_cases k <;> simp [encode, Instr.row, bit_ofNat, Nat.testBit]

theorem ld (d : RegIx) (o : BitVec 9) : Statement (.ld d o) :=
  fixed_bits _ _ _ fun k hk => by
    interval_cases k <;> simp [encode, Instr.row, bit_ofNat, Nat.testBit]

theorem st (r : RegIx) (o : BitVec 9) : Statement (.st r o) :=
  fixed_bits _ _ _ fun k hk => by
    interval_cases k <;> simp [encode, Instr.row, bit_ofNat, Nat.testBit]

theorem jsr (o : BitVec 11) : Statement (.jsr o) :=
  fixed_bits _ _ _ fun k hk => by
    interval_cases k <;> simp [encode, Instr.row, bit_ofNat, Nat.testBit]

theorem jsrr (b : RegIx) : Statement (.jsrr b) :=
  fixed_bits _ _ _ fun k hk => by
    interval_cases k <;> simp [encode, Instr.row, bit_ofNat, Nat.testBit]

theorem and (d : RegIx) (a : RegIx) (b : RegIx) : Statement (.and d a b) :=
  fixed_bits _ _ _ fun k hk => by
    interval_cases k <;> simp [encode, Instr.row, bit_ofNat, Nat.testBit]

theorem andi (d : RegIx) (a : RegIx) (v : BitVec 5) : Statement (.andi d a v) :=
  fixed_bits _ _ _ fun k hk => by
    interval_cases k <;> simp [encode, Instr.row, bit_ofNat, Nat.testBit]

theorem ldr (d : RegIx) (b : RegIx) (o : BitVec 6) : Statement (.ldr d b o) :=
  fixed_bits _ _ _ fun k hk => by
    interval_cases k <;> simp [encode, Instr.row, bit_ofNat, Nat.testBit]

theorem str (r : RegIx) (b : RegIx) (o : BitVec 6) : Statement (.str r b o) :=
  fixed_bits _ _ _ fun k hk => by
    interval_cases k <;> simp [encode, Instr.row, bit_ofNat, Nat.testBit]

theorem res8 : Statement .res8 := rfl

theorem not (d : RegIx) (a : RegIx) : Statement (.not d a) :=
  fixed_bits _ _ _ fun k hk => by
    interval_cases k <;> simp [encode, Instr.row, bit_ofNat, Nat.testBit]

theorem ldi (d : RegIx) (o : BitVec 9) : Statement (.ldi d o) :=
  fixed_bits _ _ _ fun k hk => by
    interval_cases k <;> simp [encode, Instr.row, bit_ofNat, Nat.testBit]

theorem sti (r : RegIx) (o : BitVec 9) : Statement (.sti r o) :=
  fixed_bits _ _ _ fun k hk => by
    interval_cases k <;> simp [encode, Instr.row, bit_ofNat, Nat.testBit]

theorem jmp (b : RegIx) : Statement (.jmp b) :=
  fixed_bits _ _ _ fun k hk => by
    interval_cases k <;> simp [encode, Instr.row, bit_ofNat, Nat.testBit]

theorem resd : Statement .resd := rfl

theorem lea (d : RegIx) (o : BitVec 9) : Statement (.lea d o) :=
  fixed_bits _ _ _ fun k hk => by
    interval_cases k <;> simp [encode, Instr.row, bit_ofNat, Nat.testBit]

theorem trap (v : BitVec 8) : Statement (.trap v) :=
  fixed_bits _ _ _ fun k hk => by
    interval_cases k <;> simp [encode, Instr.row, bit_ofNat, Nat.testBit]

end Sys2Proof.Laws.EncodedInRow
end

