-- ==== Sys2Proof/Tests/Slice0.lean ====
section
/-! SUPPORT. The model's own tests. Every expected value is taken from spec/95_test_vectors.md, whose vector is
named beside the test, or written out from the encoding rules of spec/30_encoding.md. Then one witness for each
statement that has hypotheses. -/

namespace Sys2Proof.Tests

open Sys2Proof.Machine Sys2Proof.Claims

/-! ### Building a small state -/

/-- The reset state with PC, COND, some registers and some Words of memory set. -/
def mk (pc cond : Word) (regs : List (RegIx × Word)) (mem : List (Word × Word)) : State :=
  mem.foldl (fun s c => s.memWrite c.1 c.2)
    (regs.foldl (fun s r => s.writeReg r.1 r.2) ((State.reset.setPc pc).setCond cond))

/-- The state after one step. -/
def after (s : State) : State := (hostStep s).1

/-! ### Well-formedness: each check refuses -/

theorem test_isDefined_refuses :
    Instr.isDefined .res8 = false ∧ Instr.isDefined .resd = false ∧ Instr.isDefined (.trap 0) = true := by
  decide

theorem test_register_names_end_at_R7 :
    AsmLine.wellFormed (.add 8 0 0) = false ∧ AsmLine.wellFormed (.add 0 8 0) = false ∧
    AsmLine.wellFormed (.add 0 0 8) = false ∧ AsmLine.wellFormed (.not 0 8) = false ∧
    AsmLine.wellFormed (.ld 8 0) = false ∧ AsmLine.wellFormed (.str 0 8 0) = false ∧
    AsmLine.wellFormed (.jmp 8) = false ∧ AsmLine.wellFormed (.jsrr 8) = false ∧
    AsmLine.wellFormed (.add 7 7 7) = true := by decide

theorem test_number_ranges_refuse :
    AsmLine.wellFormed (.addi 0 0 16) = false ∧ AsmLine.wellFormed (.addi 0 0 (-17)) = false ∧
    AsmLine.wellFormed (.ldr 0 0 32) = false ∧ AsmLine.wellFormed (.ldr 0 0 (-33)) = false ∧
    AsmLine.wellFormed (.br true true true 256) = false ∧ AsmLine.wellFormed (.lea 0 (-257)) = false ∧
    AsmLine.wellFormed (.jsr 1024) = false ∧ AsmLine.wellFormed (.jsr (-1025)) = false ∧
    AsmLine.wellFormed (.trap 256) = false ∧ AsmLine.wellFormed (.fill 65536) = false ∧
    AsmLine.wellFormed (.andi 0 0 (-16)) = true := by decide

/-! ### Decoding, by Words written out bit by bit -/

/-- Rules R53 to R55: ADD R1,R2,R3; the same with bits 4:3 set; ADD R1,R1,#-1; AND R0,R0,#0; NOT R1,R2. -/
theorem test_decode_operate :
    decode 0b0001_001_010_0_00_011 = .add 1 2 3 ∧ decode 0b0001_001_010_0_11_011 = .add 1 2 3 ∧
    decode 0b0001_001_001_1_11111 = .addi 1 1 0b11111 ∧ decode 0b0101_001_010_0_00_011 = .and 1 2 3 ∧
    decode 0b0101_000_000_1_00000 = .andi 0 0 0 ∧ decode 0b1001_001_010_111111 = .not 1 2 := by decide

/-- Rules R56 and R57: LD, ST, LDI, STI, LEA with a 9-bit offset, LDR and STR with a base. -/
theorem test_decode_data_movement :
    decode 0b0010_010_000000010 = .ld 2 2 ∧ decode 0b0011_001_111111111 = .st 1 0b111111111 ∧
    decode 0b1010_001_000000001 = .ldi 1 1 ∧ decode 0b1011_000_000000011 = .sti 0 3 ∧
    decode 0b1110_010_000000101 = .lea 2 5 ∧ decode 0b0110_001_010_000001 = .ldr 1 2 1 ∧
    decode 0b0111_101_010_100000 = .str 5 2 0b100000 := by decide

/-- Rules R52, R58 and R59: BRz, BRn, BRp, RET, JSR with bit 11, JSRR without it and with every ignored bit
set. -/
theorem test_decode_control :
    decode 0b0000_0_1_0_000000011 = .br false true false 3 ∧
    decode 0b0000_1_0_0_000000011 = .br true false false 3 ∧
    decode 0b0000_0_0_1_100000000 = .br false false true 0b100000000 ∧
    decode 0b1100_000_111_000000 = .jmp 7 ∧ decode 0b0100_1_10000000001 = .jsr 0b10000000001 ∧
    decode 0b0100_0_00_010_000000 = .jsrr 2 ∧ decode 0b0100_0_11_010_111111 = .jsrr 2 := by decide

/-- Rule R60. -/
theorem test_decode_system :
    decode 0b1111_0000_00100101 = .trap 0x25 ∧ decode 0b1111_1111_00100101 = .trap 0x25 ∧
    decode 0b1000_101010111100 = .res8 ∧ decode 0b1101_111111111111 = .resd := by decide

/-- The row boundaries of section 2.1. -/
theorem test_decode_row_boundaries :
    ((decode 0x101F).row.mnemonic, (decode 0x1020).row.mnemonic, (decode 0x47FF).row.mnemonic,
      (decode 0x4800).row.mnemonic) = ("ADD", "ADDI", "JSRR", "JSR") ∧
    ((decode 0x7FFF).row.mnemonic, (decode 0x8000).row.mnemonic, (decode 0x8FFF).row.mnemonic,
      (decode 0x9000).row.mnemonic) = ("STR", "RES8", "RES8", "NOT") ∧
    ((decode 0xCFFF).row.mnemonic, (decode 0xD000).row.mnemonic, (decode 0xDFFF).row.mnemonic,
      (decode 0xE000).row.mnemonic) = ("JMP", "RESD", "RESD", "LEA") := by decide

/-- A table Word is decoded as it stands, with the bits above the given number zero; nothing is longer than one
Word. -/
theorem test_decodeTableWord :
    decodeTableWord 16 0x1283 = some (.add 1 2 3) ∧ decodeTableWord 8 0xFF83 = some (decode 0x0083) ∧
    decodeTableWord 32 0x1283 = none := by decide

/-- Rules R68 and R69: the lines of programs P1, P2 and P3 give the listed Words. -/
theorem test_assemble_programs :
    [AsmLine.andi 0 0 0, .addi 1 1 5, .add 0 0 1, .addi 1 1 (-1), .br false false true (-3), .trap 0x25,
     .lea 2 5, .ldr 1 2 1, .str 0 2 2, .fill 0x7FFF, .ld 0 4, .jsr 5, .sti 0 3, .not 0 0, .ret,
     .st 0 0, .br false false false 1, .nop].map assemble =
    [0x5020, 0x1265, 0x1001, 0x127F, 0x03FD, 0xF025, 0xE405, 0x6281, 0x7082, 0x7FFF, 0x2004, 0x4805,
     0xB003, 0x903F, 0xC1C0, 0x3000, 0x0E01, 0x0000].map some := by decide

/-! ### Extension and flags (sections 2.2 and 2.3) -/

theorem test_extension :
    sext16 (0x0F : BitVec 5) = 0x000F ∧ sext16 (0x10 : BitVec 5) = 0xFFF0 ∧
    sext16 (0x20 : BitVec 6) = 0xFFE0 ∧ sext16 (0x0FF : BitVec 9) = 0x00FF ∧
    sext16 (0x100 : BitVec 9) = 0xFF00 ∧ sext16 (0x400 : BitVec 11) = 0xFC00 ∧
    zext16 (0xFF : BitVec 8) = 0x00FF := by decide

theorem test_setcc :
    ccOf 0x0000 = 2 ∧ ccOf 0x0001 = 1 ∧ ccOf 0x7FFF = 1 ∧ ccOf 0x8000 = 4 ∧ ccOf 0xFFFF = 4 := by decide

/-! ### One step each (sections 2.4 to 2.7) -/

/-- Vector O4: signed overflow wraps. -/
theorem test_add_wraps :
    let t := after (mk 0x3000 0 [(2, 0x7FFF), (3, 0x0001)] [(0x3000, 0x1283)])
    t.readReg 1 = 0x8000 ∧ t.cond = 4 ∧ t.pc = 0x3001 := by decide

/-- Vector O6: both sources are the destination. -/
theorem test_add_sources_before_write :
    let t := after (mk 0x3000 0 [(1, 0x4000)] [(0x3000, 0x1241)])
    t.readReg 1 = 0x8000 ∧ t.cond = 4 := by decide

/-- Vector O8. -/
theorem test_addi_minus_16 :
    let t := after (mk 0x3000 0 [(1, 0x0005)] [(0x3000, 0x1270)])
    t.readReg 1 = 0xFFF5 ∧ t.cond = 4 := by decide

/-- Vector O11: the flags of a copy, over an older flag. -/
theorem test_addi_zero_sets_flags :
    let t := after (mk 0x3000 1 [(1, 0x8000)] [(0x3000, 0x1260)])
    t.readReg 1 = 0x8000 ∧ t.cond = 4 := by decide

/-- Vector O12. -/
theorem test_and :
    let t := after (mk 0x3000 0 [(2, 0x0F0F), (3, 0x00FF)] [(0x3000, 0x5283)])
    t.readReg 1 = 0x000F ∧ t.cond = 1 := by decide

/-- Vector O15: the immediate is extended with ones. -/
theorem test_andi_keeps_high_bits :
    let t := after (mk 0x3000 0 [(0, 0xABCD)] [(0x3000, 0x5030)])
    t.readReg 0 = 0xABC0 ∧ t.cond = 4 := by decide

/-- Vector O13. -/
theorem test_andi_clears :
    let t := after (mk 0x3000 4 [(0, 0xABCD)] [(0x3000, 0x5020)])
    t.readReg 0 = 0x0000 ∧ t.cond = 2 := by decide

/-- Vectors O18 and O20. -/
theorem test_not :
    (after (mk 0x3000 0 [(2, 0x00FF)] [(0x3000, 0x9280)])).readReg 1 = 0xFF00 ∧
    (after (mk 0x3000 0 [(1, 0x8000)] [(0x3000, 0x927F)])).readReg 1 = 0x7FFF ∧
    (after (mk 0x3000 0 [(1, 0x8000)] [(0x3000, 0x927F)])).cond = 1 := by decide

/-- Vector M4: the address wraps downward. -/
theorem test_ld_wraps :
    let t := after (mk 0x0000 0 [] [(0x0000, 0x2500), (0xFF01, 0x0042)])
    t.readReg 2 = 0x0042 ∧ t.cond = 1 ∧ t.pc = 0x0001 := by decide

/-- Vector M3: `npc` wraps. -/
theorem test_ld_at_the_top :
    let t := after (mk 0xFFFF 0 [] [(0xFFFF, 0x2400), (0x0000, 0x1234)])
    t.readReg 2 = 0x1234 ∧ t.pc = 0x0000 := by decide

/-- Vector M6: COND is unchanged. -/
theorem test_st :
    let t := after (mk 0x3000 0 [(1, 0x1234)] [(0x3000, 0x3205)])
    t.memRead 0x3006 = 0x1234 ∧ t.cond = 0 ∧ t.pc = 0x3001 := by decide

/-- Vector M8: the Word fetched next is the one stored. -/
theorem test_st_next_word :
    (after (mk 0x3000 0 [(1, 0xF025)] [(0x3000, 0x3200)])).fetch = 0xF025 := by decide

/-- Vector M9: the flag is the data's, not the pointer's. -/
theorem test_ldi :
    let t := after (mk 0x3000 1 [] [(0x3000, 0xA201), (0x3002, 0x4000), (0x4000, 0x0000)])
    t.readReg 1 = 0x0000 ∧ t.cond = 2 := by decide

/-- Vector M10: a pointer to itself. -/
theorem test_ldi_self_pointer :
    (after (mk 0x3000 0 [] [(0x3000, 0xA201), (0x3002, 0x3002)])).readReg 1 = 0x3002 := by decide

/-- Vector M11. -/
theorem test_sti :
    let t := after (mk 0x3002 4 [(0, 0xFFFB)] [(0x3002, 0xB003), (0x3006, 0x4000)])
    t.memRead 0x4000 = 0xFFFB ∧ t.memRead 0x3006 = 0x4000 ∧ t.cond = 4 ∧ t.pc = 0x3003 := by decide

/-- Vector M13: the base is read before DR is written. -/
theorem test_ldr_base_is_destination :
    let t := after (mk 0x3000 0 [(1, 0x4000)] [(0x3000, 0x6240), (0x4000, 0x8001)])
    t.readReg 1 = 0x8001 ∧ t.cond = 4 := by decide

/-- Vector M15: the most negative offset, wrapping. -/
theorem test_ldr_minus_32 :
    (after (mk 0x3000 0 [] [(0x3000, 0x62E0), (0xFFE0, 0x0007)])).readReg 1 = 0x0007 := by decide

/-- Vector M17. -/
theorem test_str :
    let t := after (mk 0x3000 1 [(0, 0x8000), (2, 0x3006)] [(0x3000, 0x7082)])
    t.memRead 0x3008 = 0x8000 ∧ t.cond = 1 := by decide

/-- Vector M18: a store into the trap vector table. -/
theorem test_str_trap_table :
    (after (mk 0x3000 0 [(2, 0x0100)] [(0x3000, 0x74BF)])).memRead 0x00FF = 0x0100 := by decide

/-- Vectors M20 and M21. -/
theorem test_lea_flags :
    (after (mk 0xFFFF 1 [] [(0xFFFF, 0xE200)])).cond = 2 ∧
    (after (mk 0x7FFF 0 [] [(0x7FFF, 0xE200)])).readReg 1 = 0x8000 ∧
    (after (mk 0x7FFF 0 [] [(0x7FFF, 0xE200)])).cond = 4 := by decide

/-- Vectors B-c, B-d and B-l: taken on Z only, and only bits 2 to 0 of COND are tested. -/
theorem test_br_z :
    (after (mk 0x3005 2 [] [(0x3005, 0x0403)])).pc = 0x3009 ∧
    (after (mk 0x3005 4 [] [(0x3005, 0x0403)])).pc = 0x3006 ∧
    (after (mk 0x3005 0xFFFA [] [(0x3005, 0x0403)])).pc = 0x3009 := by decide

/-- Vectors B-e, B-i and B-j: no flag set; BRn; BRp. -/
theorem test_br_masks :
    (after (mk 0x3005 0 [] [(0x3005, 0x0FFD)])).pc = 0x3006 ∧
    (after (mk 0x3005 4 [] [(0x3005, 0x0900)])).pc = 0x2F06 ∧
    (after (mk 0x3005 1 [] [(0x3005, 0x02FF)])).pc = 0x3105 := by decide

/-- Vectors J1 and J3. -/
theorem test_jmp :
    (after (mk 0x3009 4 [(7, 0x3002)] [(0x3009, 0xC1C0)])).pc = 0x3002 ∧
    (after (mk 0x3009 4 [(7, 0x3002)] [(0x3009, 0xC1C0)])).readReg 7 = 0x3002 ∧
    (after (mk 0x3000 0 [(2, 0x1234)] [(0x3000, 0xCEBF)])).pc = 0x1234 := by decide

/-- Vectors S-a, S-c and S-d. -/
theorem test_jsr :
    (after (mk 0x3001 1 [] [(0x3001, 0x4805)])).readReg 7 = 0x3002 ∧
    (after (mk 0x3001 1 [] [(0x3001, 0x4805)])).pc = 0x3007 ∧
    (after (mk 0x3001 0 [] [(0x3001, 0x4C00)])).pc = 0x2C02 ∧
    (after (mk 0x3001 0 [] [(0x3001, 0x4BFF)])).pc = 0x3401 := by decide

/-- Vector S-f: link first, then read. -/
theorem test_jsrr_r7_falls_through :
    let t := after (mk 0x3001 0 [(7, 0x5000)] [(0x3001, 0x41C0)])
    t.readReg 7 = 0x3002 ∧ t.pc = 0x3002 := by decide

/-- Vector S-g. -/
theorem test_jsrr :
    let t := after (mk 0x3001 0 [(2, 0x5000)] [(0x3001, 0x46BF)])
    t.readReg 7 = 0x3002 ∧ t.pc = 0x5000 := by decide

/-- Vectors T1 and T3. -/
theorem test_trap :
    (after (mk 0x3006 2 [] [(0x3006, 0xF025), (0x0025, 0x0520)])).pc = 0x0520 ∧
    (after (mk 0x3006 2 [] [(0x3006, 0xF025), (0x0025, 0x0520)])).readReg 7 = 0x3007 ∧
    (after (mk 0x3006 2 [] [(0x3006, 0xFFFF), (0x00FF, 0xABCD)])).pc = 0xABCD := by decide

/-- Vector T5: `npc` wraps, and the result names the trap. -/
theorem test_trap_at_the_top :
    (after (mk 0xFFFF 0 [] [(0xFFFF, 0xF000)])).readReg 7 = 0x0000 ∧
    (hostStep (mk 0xFFFF 0 [] [(0xFFFF, 0xF000)])).2 = .executed (.trap 0) := by decide

/-- Vector X3: the report carries the whole Word and the state is unchanged. -/
theorem test_res8 :
    hostStep (mk 0x3004 1 [(1, 7)] [(0x3004, 0x8ABC)]) =
      (mk 0x3004 1 [(1, 7)] [(0x3004, 0x8ABC)], .illegalOpcode 0x8ABC) := by decide

/-- Vector X2. -/
theorem test_resd :
    hostStep (mk 0x0000 0 [] [(0x0000, 0xDFFF)]) =
      (mk 0x0000 0 [] [(0x0000, 0xDFFF)], .illegalOpcode 0xDFFF) := by decide

/-- The accesses of vectors M11 and T1, the fetch first. -/
theorem test_accesses :
    stepAccesses (mk 0x3002 0 [(0, 0xFFFB)] [(0x3002, 0xB003), (0x3006, 0x4000)]) =
      [.read 0x3002, .read 0x3006, .write 0x4000 0xFFFB] ∧
    stepAccesses (mk 0x3006 0 [] [(0x3006, 0xF025)]) = [.read 0x3006, .read 0x0025] := by decide

/-! ### Host operations (section 2.8) -/

/-- Vectors H4 and H5. -/
theorem test_load :
    (hostApply (.load [0xAAAA] 0xFFFF) State.reset).1.memRead 0xFFFF = 0xAAAA ∧
    (hostApply (.load [0xAAAA, 0xBBBB] 0xFFFF) (mk 0 0 [] [(0xFFFF, 1), (0, 2)])).2 = .outOfBoundsLoad ∧
    (hostApply (.load [0xAAAA, 0xBBBB] 0xFFFF) (mk 0 0 [] [(0xFFFF, 1), (0, 2)])).1.memRead 0xFFFF = 1 := by
  decide

/-- Vector H8 and rule R162: a load does not set PC, the boot script does. -/
theorem test_boot :
    (hostApply (.load [0x1283] 0x3000) State.reset).1.pc = 0x0000 ∧
    (hostScript (bootScript [(0x3000, [0x1283])] 0x3000 [(2, 3)]) State.reset).1.fetch = 0x1283 := by decide

/-- Rule R168: the recommended stopping rule. -/
theorem test_stop :
    stopAtHaltOrIllegal (.executed (.trap 0x25)) = true ∧ stopAtHaltOrIllegal (.executed (.trap 0x24)) = false ∧
    stopAtHaltOrIllegal (.illegalOpcode 0x8000) = true ∧
    (hostRun stopAtHaltOrIllegal 5 (mk 0x3006 0 [] [(0x3006, 0xF025)])).2 = (1, some (.executed (.trap 0x25))) := by
  decide

/-- An instruction placed at reset's PC is the first one to run. -/
theorem test_withFetchWord :
    step (State.reset.withFetchWord 16 0x1021) =
      .next (((State.reset.withFetchWord 16 0x1021).setPc 1).produce 0 1) := rfl

/-! ### Witnesses: the hypotheses of each statement that has some can be met -/

theorem witness_IgnoredBitsChangeNothing :
    ((0x1283 : Word) ^^^ 0x129B) &&& ~~~(decode 0x1283).row.ignored = 0 ∧
    (∃ f, exec (decode 0x8ABC) State.reset = .fault f) ∧
    (Instr.add 1 2 3).row.mnemonic ≠ "NOT" := ⟨by decide, ⟨_, rfl⟩, by decide⟩

theorem witness_OnlyTheReservedSelectorsArePlaceholders :
    (mk 0x3004 0 [] [(0x3004, 0x8000)]).memRead 0x3004 = 0x8000 ∧
    (mk 0x3004 0 [] [(0x3004, 0x7FFF)]).memRead 0x3004 = 0x7FFF := by decide

/-- The three signs, at their boundaries. -/
theorem witness_SetccLeavesTheFlagOfTheSign :
    (0xFFFF : Word).toInt < 0 ∧ (0x8000 : Word).toInt < 0 ∧ (0x0000 : Word).toInt = 0 ∧
    0 < (0x0001 : Word).toInt ∧ 0 < (0x7FFF : Word).toInt := by decide

/-- A state with no flag set that is not the reset state, and an instruction that produces no data. -/
theorem witness_ResetLeavesEverythingZero :
    (mk 0x3000 0 [(1, 5)] []).cond = 0x0000 ∧ Instr.dataDest (.st 1 0) = none ∧
    ∃ t, exec (.st 1 0) (mk 0x3000 0 [(1, 5)] []) = .next t := ⟨by decide, rfl, _, rfl⟩

theorem witness_AddPutsTheWrappedSumInDr : (0x1283 : Word) &&& 0xF020 = 0x1000 := by decide

theorem witness_AddImmediatePutsTheWrappedSumInDr : (0x127F : Word) &&& 0xF020 = 0x1020 := by decide

theorem witness_AndPutsTheBitwiseAndInDr : (0x5283 : Word) &&& 0xF020 = 0x5000 := by decide

theorem witness_AndImmediatePutsTheBitwiseAndInDr : (0x5030 : Word) &&& 0xF020 = 0x5020 := by decide

theorem witness_NotPutsTheComplementInDr : (0x92BF : Word) &&& 0xF000 = 0x9000 := by decide

theorem witness_LoadPutsTheWordAtTheAddressInDr : (0x2402 : Word) &&& 0xF000 = 0x2000 := by decide

theorem witness_StoreWritesSrAtTheAddress : (0x3205 : Word) &&& 0xF000 = 0x3000 := by decide

theorem witness_LoadIndirectPutsThePointersWordInDr : (0xA201 : Word) &&& 0xF000 = 0xA000 := by decide

theorem witness_StoreIndirectWritesSrAtThePointer : (0xB003 : Word) &&& 0xF000 = 0xB000 := by decide

theorem witness_LoadRegisterPutsTheWordAtTheAddressInDr : (0x6281 : Word) &&& 0xF000 = 0x6000 := by decide

theorem witness_StoreRegisterWritesSrAtTheAddress : (0x7082 : Word) &&& 0xF000 = 0x7000 := by decide

theorem witness_LoadEffectiveAddressPutsTheAddressInDr : (0xE405 : Word) &&& 0xF000 = 0xE000 := by decide

theorem witness_BranchIsTakenWhenTheMaskMeetsCond : (0x0403 : Word) &&& 0xF000 = 0x0000 := by decide

theorem witness_JumpGoesToTheBaseRegister : (0xC1C0 : Word) &&& 0xF000 = 0xC000 := by decide

theorem witness_JsrLinksAndGoesToTheOffset : (0x4805 : Word) &&& 0xF800 = 0x4800 := by decide

theorem witness_JsrrLinksAndGoesToTheBaseRegister : (0x41C0 : Word) &&& 0xF800 = 0x4000 := by decide

theorem witness_TrapLinksAndGoesThroughTheTable :
    (0xF025 : Word) &&& 0xF000 = 0xF000 ∧
    decode ((mk 0x3006 0 [] [(0x3006, 0xF025)]).memRead 0x3006) = .trap 0x25 := by decide

theorem witness_Selector1000ReportsIllegalOpcode :
    (0x8ABC : Word) &&& 0xF000 = 0x8000 ∧
    (mk 0x3004 0 [] [(0x3004, 0x8ABC)]).memRead (mk 0x3004 0 [] [(0x3004, 0x8ABC)]).pc &&& 0xF000 = 0x8000 := by
  decide

theorem witness_Selector1101ReportsIllegalOpcode :
    (0xDFFF : Word) &&& 0xF000 = 0xD000 ∧
    (mk 0x0000 0 [] [(0x0000, 0xDFFF)]).memRead (mk 0x0000 0 [] [(0x0000, 0xDFFF)]).pc &&& 0xF000 = 0xD000 := by
  decide

theorem witness_StepRunsTheDecodedWord :
    decode ((mk 0x3000 0 [] [(0x3000, 0x1283)]).memRead 0x3000) = .add 1 2 3 := by decide

theorem witness_PlacedWordIsTheNextToRun : (0x0001 : Word) ≠ State.reset.pc := by decide

/-- Both cases: a reserved Word and a defined one. -/
theorem witness_StepCompletesUnlessTheSelectorIsReserved :
    reservedSelector 0x8000 = true ∧ reservedSelector 0x1283 = false := by decide

/-- A producing instruction, one that leaves COND, and one that is no Branch, each with its next state. -/
theorem witness_CondIsWrittenByProducersAndReadByBranch :
    (∃ t, exec (.lea 1 0) State.reset = .next t) ∧ Instr.dataDest (.lea 1 0) = some 1 ∧
    (∃ t, exec (.trap 0) State.reset = .next t) ∧ Instr.dataDest (.trap 0) = none ∧
    Instr.isBranch (.trap 0) = false := ⟨⟨_, rfl⟩, rfl, ⟨_, rfl⟩, rfl, rfl⟩

/-- A storing step and a step that writes a register. -/
theorem witness_StepWritesOneRegisterOrOneWord :
    (∃ t, step (mk 0x3000 0 [(1, 0x1234)] [(0x3000, 0x3205)]) = .next t) ∧
    Access.write 0x3006 0x1234 ∈ stepAccesses (mk 0x3000 0 [(1, 0x1234)] [(0x3000, 0x3205)]) ∧
    (∃ t, step (mk 0x3000 0 [] [(0x3000, 0xE405)]) = .next t) ∧
    (decode (mk 0x3000 0 [] [(0x3000, 0xE405)]).fetch).writtenReg ≠ none := by
  refine ⟨⟨_, rfl⟩, by decide, ⟨_, rfl⟩, by decide⟩

theorem witness_StepMakesExactlyTheListedWrites :
    ∃ t, step (mk 0x3000 0 [(1, 0x1234)] [(0x3000, 0x3205)]) = .next t := ⟨_, rfl⟩

/-- Two states with different memories that agree on the Words an LDI reads. -/
theorem witness_StepDependsOnNoOtherWordThanTheListed :
    let s := mk 0x3000 0 [] [(0x3000, 0xA201), (0x3002, 0x4000), (0x4000, 0x0005)]
    let t := s.memWrite 0x5000 0x1111
    SameRegisters s t ∧ s.mem ≠ t.mem ∧ ∀ a, Access.read a ∈ stepAccesses s → s.memRead a = t.memRead a := by
  refine ⟨⟨rfl, rfl, rfl⟩, by decide, fun a h => ?_⟩
  have e : stepAccesses (mk 0x3000 0 [] [(0x3000, 0xA201), (0x3002, 0x4000), (0x4000, 0x0005)]) =
      [.read 0x3000, .read 0x3002, .read 0x4000] := by decide
  rw [e] at h
  simp only [List.mem_cons, Access.read.injEq, List.not_mem_nil, or_false] at h
  rcases h with rfl | rfl | rfl <;> decide

theorem witness_OnlyTransfersLeaveTheNextWord :
    Instr.isTransfer (.st 0 0) = false ∧ Instr.isDefined (.st 0 0) = true := by decide

theorem witness_StoredWordIsSeenByTheNextFetch :
    (∃ t, exec (.st 1 0) (mk 0x3000 0 [(1, 0xF025)] []) = .next t) ∧
    Access.write 0x3001 0xF025 ∈ dataAccesses (.st 1 0) (mk 0x3000 0 [(1, 0xF025)] []) := by
  refine ⟨⟨_, rfl⟩, by decide⟩

theorem witness_JumpR7ReturnsToAfterTheLink :
    Instr.writtenReg (.trap 0x25) = some linkReg ∧ Instr.isTransfer (.trap 0x25) = true := by decide

/-- Both ends of the range. -/
theorem witness_StoreThenLoadGivesTheStoredWord :
    (-255 : Int) ≤ -255 ∧ (-255 : Int) ≤ 255 ∧ (-255 : Int) ≤ 255 ∧ (255 : Int) ≤ 255 := by decide

theorem witness_StoreIntoTheTrapTableRedirectsTheTrap :
    (mk 0x3000 0 [(2, 0x0100)] []).eaBase 2 0b111111 = BitVec.ofNat 16 (0xFF : BitVec 8).toNat := by decide

/-- A state other than reset that meets the invariant, and its next state. -/
theorem witness_StepKeepsTheInvariant :
    (mk 0x3000 4 [(1, 0x1234)] [(0x3000, 0x3205)]).Inv ∧
    ∃ t, step (mk 0x3000 4 [(1, 0x1234)] [(0x3000, 0x3205)]) = .next t := ⟨⟨by decide, by decide⟩, _, rfl⟩

/-- A producing step, and a step from a state with one flag that produces nothing. -/
theorem witness_OneFlagIsSetFromTheFirstProducerOn :
    (∃ t, step (mk 0x3000 0 [] [(0x3000, 0xE405)]) = .next t) ∧
    (decode (mk 0x3000 0 [] [(0x3000, 0xE405)]).fetch).dataDest ≠ none ∧
    (∃ t, step (mk 0x3000 4 [] [(0x3000, 0x4805)]) = .next t) ∧
    condOneFlag (mk 0x3000 4 [] [(0x3000, 0x4805)]).cond = true ∧
    condReachable (mk 0x3000 0 [] [(0x3000, 0xE405)]).cond = true := by
  refine ⟨⟨_, rfl⟩, by decide, ⟨_, rfl⟩, by decide, by decide⟩

/-- The memory after two writes in one order and in the other. -/
theorem witness_CanonicalMemoriesThatReadAlikeAreEqual :
    Memory.wf (Memory.write (Memory.write [] 2 7) 1 9) ∧ Memory.wf [(1, 9), (2, 7)] ∧
    ∀ a : Word, Memory.read (Memory.write (Memory.write [] 2 7) 1 9) a = Memory.read [(1, 9), (2, 7)] a := by
  have e : Memory.write (Memory.write [] 2 7) 1 9 = [(1, 9), (2, 7)] := by decide
  exact ⟨by decide, by decide, fun a => by rw [e]⟩

/-- The two clauses at the edge of the address space: a block that ends at 0xFFFF fits, one Word more does
not, and an address lies outside the block. -/
theorem witness_LoadIsAllOrNothing :
    (0xFFFF : Word).toNat + [(1 : Word)].length ≤ 65536 ∧
    ¬((0xFFFF : Word).toNat + [(1 : Word), 2].length ≤ 65536) ∧
    (0xFFFE : Word).toNat < (0xFFFF : Word).toNat := by decide

theorem witness_HostReadsBackWhatItWrote : Slot.pc ≠ .cond ∧ (1 : Word) ≠ 2 := by decide

theorem witness_BootLeavesTheProgramAndTheEntryPoint :
    (0x3000 : Word).toNat + [(0x5020 : Word), 0xF025].length ≤ 65536 := by decide

theorem witness_HostOperationsKeepTheInvariant :
    HostOp.condLegal (.regWrite .cond 0x0002) = true ∧ HostOp.condLegal .step = true ∧ State.reset.Inv :=
  ⟨by decide, by decide, by decide, by decide⟩

theorem witness_RunEndsAtTheFirstResultThatStops :
    ∃ t, hostRun stopAtHaltOrIllegal 5 (mk 0x3005 0 [] [(0x3005, 0x1021), (0x3006, 0xF025)]) =
      (t, 2, some (.executed (.trap 0x25))) := ⟨_, rfl⟩

end Sys2Proof.Tests
end

section
/-! The extension laws of rule R6, each for every field that fits in a
Word, and from them the obligation at the widths that occur. -/

namespace Sys2Proof.Proofs.Extension

open Sys2Proof.Machine Sys2Proof.Claims

section Laws

variable {n : Nat}

@[simp] theorem zext16_toNat (f : BitVec n) (hn : n ≤ 16) : (zext16 f).toNat = f.toNat :=
  BitVec.toNat_setWidth_of_le hn

/-- The two cases of R6 are the two values of the field's sign bit. -/
theorem sext16_toNat (f : BitVec n) (hn : n ≤ 16) :
    (sext16 f).toNat = if f.toNat < 2 ^ (n - 1) then f.toNat else f.toNat + 65536 - 2 ^ n := by
  have hpow : 2 ^ n ≤ 2 ^ 16 := Nat.pow_le_pow_right (by decide) hn
  rw [sext16, BitVec.toNat_signExtend, BitVec.toNat_setWidth_of_le hn, BitVec.msb_eq_decide]
  by_cases hsign : f.toNat < 2 ^ (n - 1)
  · simp [hsign]
  · simp only [hsign, Nat.le_of_not_lt hsign, decide_true, if_true, if_false]
    omega

/-- Above the field every bit is its sign bit. -/
theorem sext16_getLsbD (f : BitVec n) {k : Nat} (hk : k < 16) :
    (sext16 f).getLsbD k = if k < n then f.getLsbD k else f.getLsbD (n - 1) := by
  rw [sext16, BitVec.getLsbD_signExtend, BitVec.msb_eq_getLsbD_last, decide_eq_true hk, Bool.true_and]

@[simp] theorem sext16_toInt (f : BitVec n) (hn : n ≤ 16) : (sext16 f).toInt = f.toInt :=
  BitVec.toInt_signExtend_of_le hn

theorem extensionLaw_of_le (hn : n ≤ 16) : ExtensionLaw n := fun f =>
  ⟨sext16_toNat f hn, fun _ hk => sext16_getLsbD f hk, sext16_toInt f hn, f.le_toInt, f.toInt_lt⟩

end Laws

/-- Settles O8: each width that occurs is at most 16, and the laws hold at every such width. -/
theorem extensionsFollowTheirFormulas : Obligations.ExtensionsFollowTheirFormulas :=
  ⟨extensionLaw_of_le (by decide), extensionLaw_of_le (by decide), extensionLaw_of_le (by decide),
    extensionLaw_of_le (by decide), fun f => zext16_toNat f (by decide)⟩

end Sys2Proof.Proofs.Extension
end

section
/-! What an instruction that completes can do to each component of the state: to COND, to the general
registers and to memory. Every statement of this family about a step is assembled from these. -/

namespace Sys2Proof.Proofs.Effects

open Sys2Proof.Machine Sys2Proof.Laws

/-- Rule R12 names the destination of a data-producing form. -/
theorem writtenReg_of_dataDest {i : Instr} {dr : RegIx} (h : i.dataDest = some dr) :
    i.writtenReg = some dr := by
  cases i with
  | add | addi | and | andi | not | ld | ldi | ldr | lea => exact h
  | br | st | sti | str | jmp | jsr | jsrr | trap | res8 | resd => cases h

theorem dataDest_eq_none_of_writtenReg {i : Instr} (h : i.writtenReg = none) : i.dataDest = none :=
  Option.eq_none_iff_forall_ne_some.2 fun _ hd => by cases h.symm.trans (writtenReg_of_dataDest hd)

section Completed

variable {i : Instr} {s t : State}

/-- COND afterwards is the flag of the destination register's Word, or what it was. -/
theorem exec_next_cond (h : exec i s = .next t) :
    (∃ dr, i.dataDest = some dr ∧ t.cond = ccOf (t.readReg dr)) ∨
    (i.dataDest = none ∧ t.cond = s.cond) := by
  obtain ⟨dr, v, hdest, he⟩ | ⟨a, v, hreg, -, -, he⟩ | ⟨p, hreg, -, he⟩ | ⟨p, hdest, -, -, he⟩ | ⟨-, he⟩ :=
    exec_shape i s <;> cases he.symm.trans h
  · exact .inl ⟨dr, hdest, by simp⟩
  · exact .inr ⟨dataDest_eq_none_of_writtenReg hreg, rfl⟩
  · exact .inr ⟨dataDest_eq_none_of_writtenReg hreg, rfl⟩
  · exact .inr ⟨hdest, rfl⟩

/-- A general register other than the one rule R12 names is as before. -/
theorem exec_next_readReg (h : exec i s = .next t) {r : RegIx} (hr : i.writtenReg ≠ some r) :
    t.readReg r = s.readReg r := by
  obtain ⟨dr, v, hdest, he⟩ | ⟨a, v, -, -, -, he⟩ | ⟨p, -, -, he⟩ | ⟨p, -, hlink, -, he⟩ | ⟨-, he⟩ :=
    exec_shape i s <;> cases he.symm.trans h
  · have hne : r ≠ dr := fun e => hr (e ▸ writtenReg_of_dataDest hdest)
    exact produce_readReg_ne s.advance dr r v hne
  · rfl
  · rfl
  · have hne : r ≠ linkReg := fun e => hr (e ▸ hlink)
    exact link_readReg_ne s r hne

end Completed

/-- Either an instruction is a store, which writes no register and makes exactly one listed write, or it
lists no write and leaves memory as it was. -/
theorem stores_or_keeps_memory (i : Instr) (s : State) :
    (∃ b w, i.writtenReg = none ∧ exec i s = .next (s.advance.memWrite b w) ∧
      ∀ a v, Access.write a v ∈ dataAccesses i s ↔ a = b ∧ v = w) ∨
    (∀ a v, Access.write a v ∉ dataAccesses i s) ∧ ∀ t, exec i s = .next t → t.mem = s.mem := by
  cases i with
  | st | str | sti => exact .inl ⟨_, _, rfl, rfl, by simp [dataAccesses]⟩
  | add | addi | and | andi | not | ld | ldi | ldr | lea | jmp | jsr | jsrr | trap =>
    exact .inr ⟨by simp [dataAccesses], by rintro t ⟨⟩; rfl⟩
  | br => exact .inr ⟨by simp [dataAccesses], by rintro t ⟨⟩; split <;> rfl⟩
  | res8 | resd => exact .inr ⟨by simp [dataAccesses], fun t h => nomatch h⟩

/-- Memory after a completed instruction is memory before it, or that with one Word written. -/
theorem exec_next_mem {i : Instr} {s t : State} (h : exec i s = .next t) :
    t.mem = s.mem ∨ ∃ a v, t.mem = s.mem.write a v := by
  obtain ⟨b, w, -, he, -⟩ | ⟨-, hkeep⟩ := stores_or_keeps_memory i s
  · cases he.symm.trans h
    exact .inr ⟨b, w, rfl⟩
  · exact .inl (hkeep t h)

/-- The host's step leads to the step's next state, or leaves the state alone. -/
theorem hostStep_state (s : State) : step s = .next (hostStep s).1 ∨ (hostStep s).1 = s := by
  unfold hostStep
  split
  · next t h => exact .inl h
  · exact .inr rfl
  · exact .inr rfl

/-- The fetch is a read, so the writes of a step are its instruction's. -/
@[simp] theorem write_mem_stepAccesses (s : State) (a v : Word) :
    Access.write a v ∈ stepAccesses s ↔ Access.write a v ∈ dataAccesses (decode s.fetch) s := by
  simp [stepAccesses]

/-- Settles O36: an instruction is either the one store, which names no register, or writes no Word. -/
theorem stepWritesOneRegisterOrOneWord : Obligations.StepWritesOneRegisterOrOneWord := by
  intro s t h
  refine ⟨fun r hr => exec_next_readReg h hr, ?_⟩
  simp only [write_mem_stepAccesses]
  obtain ⟨b, w, hreg, he, hw⟩ | ⟨hw, hkeep⟩ := stores_or_keeps_memory (decode s.fetch) s
  · cases he.symm.trans h
    simp only [hw]
    refine ⟨fun a ha => read_write_ne s.mem b a w fun hab => ha w ⟨hab, rfl⟩, fun hne => absurd hreg hne, ?_⟩
    rintro a v c u ⟨rfl, rfl⟩ ⟨rfl, rfl⟩
    exact ⟨rfl, rfl⟩
  · exact ⟨fun a _ => congrArg (·.read a) (hkeep t h), fun _ => hw, fun a v _ _ hav => absurd hav (hw a v)⟩

end Sys2Proof.Proofs.Effects
end

section
/-! COND: the values of rule R17, and rule R18's "written by the data-producing forms only, read by Branch
only". -/

namespace Sys2Proof.Proofs.Cond

open Sys2Proof.Machine Sys2Proof.Claims Sys2Proof.Laws Sys2Proof.Proofs.Effects

theorem condOneFlag_iff (c : Word) : condOneFlag c = true ↔ c = 0x0001 ∨ c = 0x0002 ∨ c = 0x0004 := by
  simp only [condOneFlag, Bool.or_eq_true, decide_eq_true_eq]
  tauto

@[simp] theorem condOneFlag_ccOf (v : Word) : condOneFlag (ccOf v) = true := by
  rcases ccOf_one v with h | h | h <;> rw [h] <;> decide

theorem condReachable_of_oneFlag {c : Word} (h : condOneFlag c = true) : condReachable c = true := by
  simp [condReachable, h]

/-- The flag generator follows the sign of its Word (rule R86). -/
theorem flagOf_ccOf (v : Word) : FlagOf v (ccOf v) := by
  obtain ⟨hv, hc⟩ | ⟨rfl, hc⟩ | ⟨hv, hc⟩ := ccOf_cases v
  · exact ⟨fun _ => hc, fun h => by omega, fun h => by omega⟩
  · exact ⟨fun h => by simp at h, fun _ => hc, fun h => by simp at h⟩
  · exact ⟨fun h => by omega, fun h => by omega, fun _ => hc⟩

section Completed

variable {i : Instr} {s t : State}

theorem flagOf_of_dataDest (h : exec i s = .next t) {dr : RegIx} (hdr : i.dataDest = some dr) :
    FlagOf (t.readReg dr) t.cond := by
  obtain ⟨d, hd, hc⟩ | ⟨hnone, -⟩ := exec_next_cond h
  · cases hd.symm.trans hdr
    exact hc ▸ flagOf_ccOf _
  · cases hnone.symm.trans hdr

theorem cond_kept_of_dataDest_none (h : exec i s = .next t) (hnone : i.dataDest = none) :
    t.cond = s.cond := by
  obtain ⟨d, hd, -⟩ | ⟨-, hc⟩ := exec_next_cond h
  · cases hnone.symm.trans hd
  · exact hc

/-- Afterwards one flag is set, or COND is as before and no data was produced. -/
theorem exec_next_oneFlag (h : exec i s = .next t) :
    condOneFlag t.cond = true ∨ (i.dataDest = none ∧ t.cond = s.cond) :=
  (exec_next_cond h).imp_left fun ⟨_, _, hc⟩ => hc ▸ condOneFlag_ccOf _

theorem exec_keeps_oneFlag (h : exec i s = .next t) (hs : condOneFlag s.cond = true) :
    condOneFlag t.cond = true :=
  (exec_next_oneFlag h).elim id fun ⟨_, hc⟩ => hc ▸ hs

theorem exec_keeps_condReachable (h : exec i s = .next t) (hs : condReachable s.cond = true) :
    condReachable t.cond = true :=
  (exec_next_oneFlag h).elim condReachable_of_oneFlag fun ⟨_, hc⟩ => hc ▸ hs

end Completed

/-- Settles O49: a completed instruction sets one flag or leaves COND as it was. -/
theorem oneFlagIsSetFromTheFirstProducerOn : Obligations.OneFlagIsSetFromTheFirstProducerOn :=
  ⟨condOneFlag_iff, rfl,
    fun _ _ h => ⟨fun hd => (exec_next_oneFlag h).resolve_right fun hn => hd hn.1,
      exec_keeps_oneFlag h, exec_keeps_condReachable h⟩,
    fun _ _ => rfl⟩

/-- Settles O35: a data-producing form overwrites COND, every other form but Branch carries it along
unread. -/
theorem condIsWrittenByProducersAndReadByBranch : Obligations.CondIsWrittenByProducersAndReadByBranch := by
  refine ⟨fun i s t h => ⟨fun _ => flagOf_of_dataDest h, cond_kept_of_dataDest_none h⟩, fun i s c hbr => ?_⟩
  cases i with
  | br => cases hbr
  | add | addi | and | andi | not | ld | ldi | ldr | lea => rfl
  | st | sti | str | jmp | jsr | jsrr | trap => rfl
  | res8 | resd => rfl

end Sys2Proof.Proofs.Cond
end

section
/-! Memory in canonical form: a cell is listed exactly when its address reads as its Word and that is not
the reset Word. Hence a canonical memory is determined by what it reads as. -/

namespace Sys2Proof.Proofs.Canonical

open Sys2Proof.Machine

/-- A listed cell is what its address reads as: no earlier cell has its address. -/
theorem get_of_mem {m : Memory} {c : Cell} (hp : m.Pairwise fun c d => c.1 < d.1) (hc : c ∈ m) :
    m.get c.1 = c.2 := by
  induction m with
  | nil => cases hc
  | cons d m ih =>
    obtain ⟨hd, hm⟩ := List.pairwise_cons.1 hp
    rcases List.mem_cons.1 hc with rfl | hc
    · simp [Memory.get]
    · rw [Memory.get, if_neg (hd c hc).ne, ih hm hc]

/-- An address that does not read as the reset Word is listed. -/
theorem mem_of_get {m : Memory} {c : Cell} (hget : m.get c.1 = c.2) (hne : c.2 ≠ Config.resetWord) :
    c ∈ m := by
  induction m with
  | nil => exact absurd hget.symm hne
  | cons d m ih =>
    by_cases hd : d.1 = c.1
    · rw [Memory.get, if_pos hd] at hget
      exact List.mem_cons.2 (.inl (Prod.ext hd.symm hget.symm))
    · rw [Memory.get, if_neg hd] at hget
      exact List.mem_cons_of_mem _ (ih hget)

/-- A cell of a canonical memory is listed in every memory that reads alike. -/
theorem mem_of_reads_alike {m m' : Memory} (hm : m.wf) (h : ∀ a : Word, m.read a = m'.read a)
    {c : Cell} (hc : c ∈ m) : c ∈ m' := by
  obtain ⟨hlt, hne⟩ := hm.2 c hc
  have hread := h (BitVec.ofNat 16 c.1)
  simp only [Memory.read, BitVec.toNat_ofNat, Nat.mod_eq_of_lt hlt] at hread
  exact mem_of_get (hread ▸ get_of_mem hm.1 hc) hne

/-- Settles O50: the two lists have the same cells and both rise strictly. -/
theorem canonicalMemoriesThatReadAlikeAreEqual : Obligations.CanonicalMemoriesThatReadAlikeAreEqual := by
  intro m m' hm hm' h
  have : Std.Irrefl fun c d : Cell => c.1 < d.1 := ⟨fun c => lt_irrefl c.1⟩
  have : Std.Antisymm fun c d : Cell => c.1 < d.1 := ⟨fun _ _ hcd hdc => absurd hdc hcd.asymm⟩
  exact hm.1.eq_of_mem_iff hm'.1 fun c =>
    ⟨mem_of_reads_alike hm h, mem_of_reads_alike hm' fun a => (h a).symm⟩

end Sys2Proof.Proofs.Canonical
end

section
/-! The invariant: it holds at reset, and every step and every legal host operation keeps it. -/

namespace Sys2Proof.Proofs.Invariant

open Sys2Proof.Machine Sys2Proof.Laws Sys2Proof.Proofs.Effects Sys2Proof.Proofs.Cond

theorem wf_exec_next {i : Instr} {s t : State} (h : exec i s = .next t) (hs : s.mem.wf) : t.mem.wf := by
  obtain he | ⟨a, v, he⟩ := exec_next_mem h
  · exact he ▸ hs
  · exact he ▸ wf_write s.mem a v hs

/-- Settles O47: reset memory lists nothing and reset COND has no flag. -/
theorem resetMeetsTheInvariant : Obligations.ResetMeetsTheInvariant := ⟨wf_reset, rfl⟩

/-- Settles O48: both halves are kept by every instruction that completes. -/
theorem stepKeepsTheInvariant : Obligations.StepKeepsTheInvariant :=
  fun _ _ ⟨hmem, hcond⟩ h => ⟨wf_exec_next h hmem, exec_keeps_condReachable h hcond⟩

theorem hostStep_keeps_inv {s : State} (hs : s.Inv) : (hostStep s).1.Inv := by
  obtain h | h := hostStep_state s
  · exact stepKeepsTheInvariant _ _ hs h
  · exact h.symm ▸ hs

theorem hostLoad_keeps_inv (block : List Word) (offset : Word) {s : State} (hs : s.Inv) :
    (hostLoad block offset s).1.Inv := by
  unfold hostLoad
  split
  · exact ⟨wf_writeBlock s.mem offset block hs.1, hs.2⟩
  · exact hs

theorem writeSlot_keeps_inv {r : Slot} {v : Word} {s : State}
    (hlegal : (HostOp.regWrite r v).condLegal = true) (hs : s.Inv) : (s.writeSlot r v).Inv := by
  refine ⟨(writeSlot_mem s r v).symm ▸ hs.1, ?_⟩
  cases r with
  | gpr | pc => exact hs.2
  | cond => exact hlegal

/-- Settles O54: a read changes nothing, and each other operation keeps the invariant by its own lemma. -/
theorem hostOperationsKeepTheInvariant : Obligations.HostOperationsKeepTheInvariant := by
  intro op s hlegal hs
  cases op with
  | load block offset => exact hostLoad_keeps_inv block offset hs
  | step => exact hostStep_keeps_inv hs
  | regRead | memRead => exact hs
  | regWrite r v => exact writeSlot_keeps_inv hlegal hs
  | memWrite a v => exact ⟨wf_write s.mem a v hs.1, hs.2⟩

end Sys2Proof.Proofs.Invariant
end

section
/-! What reset leaves, and the run of a machine that nothing was loaded into. -/

namespace Sys2Proof.Proofs.Reset

open Sys2Proof.Machine Sys2Proof.Claims Sys2Proof.Proofs.Cond

theorem readReg_reset (r : RegIx) : State.reset.readReg r = 0x0000 := by
  simp [State.readReg, State.reset]

theorem memRead_reset (a : Word) : State.reset.memRead a = 0x0000 := rfl

/-- Decision D4: where no flag is set, no mask takes the branch. -/
theorem branchTaken_zero (n z p : Bool) : branchTaken n z p 0x0000 = false := by
  simp [branchTaken]

/-- An untaken branch only moves on to the next Word. -/
theorem execBr_of_cond_zero (n z p : Bool) (off9 : BitVec 9) {s : State} (hs : s.cond = 0x0000) :
    execBr n z p off9 s = .next s.advance := by
  rw [execBr, hs, branchTaken_zero]
  rfl

/-- Settles O45: with no flag set a branch only advances PC, and only a data-producing form writes COND. -/
theorem resetLeavesEverythingZero : Obligations.ResetLeavesEverythingZero := by
  refine ⟨readReg_reset, rfl, rfl, memRead_reset, fun s hs => ⟨fun n z p off9 => ?_, fun i t hi h => ?_⟩⟩
  · exact ⟨s.advance, execBr_of_cond_zero n z p off9 hs, rfl, rfl, fun _ => rfl, fun _ => rfl⟩
  · exact (cond_kept_of_dataDest_none h hi).trans hs

theorem decode_zero : decode 0x0000 = .br false false false 0 := by decide

/-- Wherever PC is, the unloaded machine runs the Word 0x0000. -/
theorem step_setPc_reset (p : Word) :
    step (State.reset.setPc p) = .next (State.reset.setPc (p + 1)) := by
  have hexec : step (State.reset.setPc p) = exec (.br false false false 0) (State.reset.setPc p) :=
    congrArg (exec · _) decode_zero
  exact hexec.trans (execBr_of_cond_zero _ _ _ _ rfl)

theorem run_setPc_reset (k : Nat) (p : Word) :
    core.run k (State.reset.setPc p) = .next (State.reset.setPc (p + BitVec.ofNat 16 k)) := by
  induction k generalizing p with
  | zero => simp [Host.Core.run]
  | succ k ih =>
    have hstep : core.step (State.reset.setPc p) = .next (State.reset.setPc (p + 1)) := step_setPc_reset p
    have hpc : p + 1 + BitVec.ofNat 16 k = p + BitVec.ofNat 16 (k + 1) := by bv_omega
    simp only [Host.Core.run, hstep, ih, hpc]

/-- Settles O46: the run of `k` steps from PC 0. -/
theorem unloadedMachineOnlyCountsPc : Obligations.UnloadedMachineOnlyCountsPc :=
  ⟨memRead_reset, decode_zero, fun k => (run_setPc_reset k 0).trans (by simp)⟩

end Sys2Proof.Proofs.Reset
end

section
/-! The effective addresses of spec/42_data_movement.md and the trap table's entry as sums modulo 65536, and
a store into the trap table. -/

namespace Sys2Proof.Proofs.Addresses

open Sys2Proof.Machine Sys2Proof.Claims Sys2Proof.Laws

/-- Rule R36: a field's extension is its signed reading modulo 65536, and that reduction is additive. -/
theorem addressAdd_eq_wrap {n : Nat} (a : Word) (off : BitVec n) : addressAdd a off = wrap a off.toInt := by
  have hoff : sext16 off = BitVec.ofInt 16 off.toInt := rfl
  rw [addressAdd, wrap, hoff, BitVec.ofInt_add, BitVec.ofInt_natCast, BitVec.ofNat_toNat, BitVec.setWidth_eq]

theorem eaPc9_eq_wrap (s : State) (off9 : BitVec 9) : s.eaPc9 off9 = wrap (s.pc + 1) off9.toInt :=
  addressAdd_eq_wrap s.npc off9

/-- Settles O9: the three sums are the address adder's, and the pointer is read at the first of them. -/
theorem effectiveAddressesWrap : Obligations.EffectiveAddressesWrap := fun s off9 off11 base off6 =>
  ⟨eaPc9_eq_wrap s off9, addressAdd_eq_wrap s.npc off11, addressAdd_eq_wrap (s.readReg base) off6,
    congrArg s.memRead (eaPc9_eq_wrap s off9)⟩

/-- Decision D7: the table begins at 0x0000, so a vector is its entry's address. -/
theorem trapEntryAddr_eq_ofNat (vec8 : BitVec 8) : trapEntryAddr vec8 = BitVec.ofNat 16 vec8.toNat := by
  rw [trapEntryAddr, BitVec.ofNat_toNat, zext16]
  exact BitVec.zero_add _

/-- Settles O44: the trap reads its entry where the store wrote. -/
theorem storeIntoTheTrapTableRedirectsTheTrap : Obligations.StoreIntoTheTrapTableRedirectsTheTrap := by
  intro s r base off6 vec8 hea
  have hentry : trapEntryAddr vec8 = s.eaBase base off6 := (trapEntryAddr_eq_ofNat vec8).trans hea.symm
  have hstored : (s.advance.memWrite (s.eaBase base off6) (s.readReg r)).memRead (trapEntryAddr vec8) =
      s.readReg r := hentry ▸ read_write_same _ _ _
  exact ⟨_, _, rfl, rfl, hstored⟩

end Sys2Proof.Proofs.Addresses
end

section
/-! The accesses of rule R40 are all that passes between a step and memory: the listed writes make the new
memory, and the Words listed as read are all of memory that the rest of the outcome depends on. -/

namespace Sys2Proof.Proofs.Accesses

open Sys2Proof.Machine Sys2Proof.Claims Sys2Proof.Laws Sys2Proof.Proofs.Effects

/-! ### The writes -/

/-- A store is replayed by its one write; every other form lists reads only and keeps memory. -/
theorem exec_next_mem_eq_replay {i : Instr} {s t : State} (h : exec i s = .next t) :
    t.mem = s.mem.replay (dataAccesses i s) := by
  cases i with
  | st | str | sti => cases h; rfl
  | add | addi | and | andi | not | ld | ldi | ldr | lea | jmp | jsr | jsrr | trap => cases h; rfl
  | br => cases h; split <;> rfl
  | res8 | resd => cases h

/-- Settles O37: the fetch is a read, and the instruction makes its own writes. -/
theorem stepMakesExactlyTheListedWrites : Obligations.StepMakesExactlyTheListedWrites :=
  fun _ _ h => exec_next_mem_eq_replay h

/-- Settles O40: the write is the instruction's only one, so its Word is what the next fetch there finds. -/
theorem storedWordIsSeenByTheNextFetch : Obligations.StoredWordIsSeenByTheNextFetch := by
  intro i s t a v h hwrite
  have hread : t.memRead a = v := by
    obtain ⟨b, w, -, he, hw⟩ | ⟨hnone, -⟩ := stores_or_keeps_memory i s
    · obtain ⟨rfl, rfl⟩ := (hw a v).1 hwrite
      cases he.symm.trans h
      exact (store_spec s a v).1
    · exact absurd hwrite (hnone a v)
  exact ⟨hread, congrArg (fun w => exec (decode w) (t.setPc a)) hread⟩

/-! ### The reads -/

/-- The state with all of memory replaced. -/
def withMem (s : State) (m : Memory) : State := { s with mem := m }

theorem eq_withMem_of_sameRegisters {s t : State} (h : SameRegisters s t) : t = withMem s t.mem := by
  obtain ⟨hx, hpc, hcond⟩ := h
  rw [withMem, hx, hpc, hcond]

section OtherMemory

variable {i : Instr} {s : State} {m : Memory}

theorem sameRegisters_produce_withMem {v w : Word} (h : v = w) (dr : RegIx) :
    SameRegisters (s.advance.produce dr v) ((withMem s m).advance.produce dr w) := by
  subst h
  exact ⟨rfl, rfl, rfl⟩

theorem sameRegisters_enterTrap_withMem {e : Word} (h : s.memRead e = (withMem s m).memRead e) :
    SameRegisters (s.enterTrap e) ((withMem s m).enterTrap e) :=
  ⟨rfl, h, rfl⟩

theorem eaIndirect_withMem {off9 : BitVec 9}
    (h : s.memRead (s.eaPc9 off9) = (withMem s m).memRead (s.eaPc9 off9)) :
    (withMem s m).eaIndirect off9 = s.eaIndirect off9 := h.symm

/-- Only the pointer of the indirect forms brings a Word of memory into an access list. -/
theorem dataAccesses_withMem
    (h : ∀ a, Access.read a ∈ dataAccesses i s → s.memRead a = (withMem s m).memRead a) :
    dataAccesses i (withMem s m) = dataAccesses i s := by
  cases i with
  | ldi dr off9 =>
    have hptr := eaIndirect_withMem (h (s.eaPc9 off9) (by simp [dataAccesses]))
    exact congrArg (fun p => [Access.read (s.eaPc9 off9), Access.read p]) hptr
  | sti sr off9 =>
    have hptr := eaIndirect_withMem (h (s.eaPc9 off9) (by simp [dataAccesses]))
    exact congrArg (fun p => [Access.read (s.eaPc9 off9), Access.write p (s.readReg sr)]) hptr
  | add | addi | and | andi | not | lea | br | jmp | jsr | jsrr | res8 | resd => rfl
  | ld | st | ldr | str | trap => rfl

/-- A load and a trap take one listed Word from memory, the placeholders report the fetched one, and no other
form takes any into registers, PC or COND. -/
theorem exec_withMem (hfetch : s.fetch = (withMem s m).fetch)
    (h : ∀ a, Access.read a ∈ dataAccesses i s → s.memRead a = (withMem s m).memRead a) :
    SameButMemory (exec i s) (exec i (withMem s m)) := by
  cases i with
  | ld dr off9 =>
    exact sameRegisters_produce_withMem (h (s.eaPc9 off9) (by simp [dataAccesses])) dr
  | ldr dr base off6 =>
    exact sameRegisters_produce_withMem (h (s.eaBase base off6) (by simp [dataAccesses])) dr
  | ldi dr off9 =>
    have hptr := eaIndirect_withMem (h (s.eaPc9 off9) (by simp [dataAccesses]))
    have hdata := h (s.eaIndirect off9) (by simp [dataAccesses])
    exact sameRegisters_produce_withMem (hdata.trans (congrArg _ hptr.symm)) dr
  | trap vec8 => exact sameRegisters_enterTrap_withMem (h (trapEntryAddr vec8) (by simp [dataAccesses]))
  | res8 | resd => exact congrArg Fault.illegalOpcode hfetch
  | br n z p off9 =>
    change SameRegisters (if branchTaken n z p s.cond then _ else _) (if branchTaken n z p s.cond then _ else _)
    split <;> exact ⟨rfl, rfl, rfl⟩
  | add | addi | and | andi | not | lea | st | sti | str | jmp | jsr | jsrr => exact ⟨rfl, rfl, rfl⟩

end OtherMemory

/-- Settles O38: the fetched Word is listed as read, so both states run one instruction; and what it reads is
listed too. -/
theorem stepDependsOnNoOtherWordThanTheListed : Obligations.StepDependsOnNoOtherWordThanTheListed := by
  intro s t hregs hreads
  rw [eq_withMem_of_sameRegisters hregs] at hreads ⊢
  obtain ⟨hfetch, hdata⟩ : s.fetch = (withMem s t.mem).fetch ∧
      ∀ a, Access.read a ∈ dataAccesses (decode s.fetch) s → s.memRead a = (withMem s t.mem).memRead a :=
    ⟨hreads s.pc List.mem_cons_self, fun a ha => hreads a (List.mem_cons_of_mem _ ha)⟩
  rw [stepAccesses, stepAccesses, step, step, ← hfetch]
  exact ⟨congrArg (Access.read s.pc :: ·) (dataAccesses_withMem hdata), exec_withMem hfetch hdata⟩

end Sys2Proof.Proofs.Accesses
end

section
/-! Fields of a Word, beside the bit lemmas of Sys2Proof/Laws/Bits.lean: what is read back where a field was put
and elsewhere, and what a field put back keeps of the Word it was read from. -/

namespace Sys2Proof.Proofs.Fields

open Sys2Proof.Laws

theorem field_or (a b : Word) (lo n : Nat) : field (a ||| b) lo n = field a lo n ||| field b lo n :=
  BitVec.extractLsb'_or

theorem field_ofNat (x lo n : Nat) : field (BitVec.ofNat 16 x) lo n = BitVec.ofNat n ((x % 65536) >>> lo) := by
  simp [field, BitVec.extractLsb']

theorem field_place_same {n lo : Nat} (f : BitVec n) (h : lo + n ≤ 16) : field (place f lo) lo n = f :=
  field_eq _ lo f fun j hj => by
    have hk : lo + j < 16 := by omega
    simp [hk]

theorem field_place_apart {m n lo lo' : Nat} (f : BitVec m) (h : lo + m ≤ lo' ∨ lo' + n ≤ lo) :
    field (place f lo) lo' n = 0 :=
  field_eq _ lo' 0 fun j hj => by
    rw [bit_place]
    obtain hbelow | habove := h
    · rw [BitVec.getLsbD_of_ge f _ (by omega)]
      simp
    · have hlo : ¬ lo ≤ lo' + j := by omega
      simp [hlo]

theorem place_field (w : Word) (lo n : Nat) : place (field w lo n) lo = w &&& place (BitVec.allOnes n) lo :=
  word_ext _ _ fun k hk => by
    by_cases h : lo ≤ k <;> simp [hk, h, getLsbD_field, Bool.and_comm]

theorem ofBool_bit (w : Word) (k : Nat) : BitVec.ofBool (bit w k) = field w k 1 :=
  (field_eq w k _ fun j hj => by
    obtain rfl : j = 0 := by omega
    simp).symm

theorem placeBit_bit (w : Word) (k : Nat) : placeBit (bit w k) k = w &&& place (BitVec.allOnes 1) k := by
  rw [placeBit, ofBool_bit, place_field]

theorem bit_of_masked {w mask pattern : Word} (h : w &&& mask = pattern) {k : Nat} (hk : bit mask k = true) :
    bit w k = bit pattern k := by
  rw [← bit_of_match w mask pattern h k, hk, Bool.and_true]

/-- Two Words differ only outside a mask exactly when they agree under it. -/
theorem xor_and_eq_zero_iff (a b m : Word) : (a ^^^ b) &&& m = 0 ↔ a &&& m = b &&& m := by
  have hdistrib : (a ^^^ b) &&& m = (a &&& m) ^^^ (b &&& m) :=
    word_ext _ _ fun k _ => by simp [Bool.and_xor_distrib_right]
  rw [hdistrib]
  exact BitVec.xor_eq_zero_iff

/-- The selector of a Word is its number's upper four bits. -/
theorem field_selector_eq_iff (w : Word) (c : BitVec 4) :
    field w 12 4 = c ↔ 4096 * c.toNat ≤ w.toNat ∧ w.toNat ≤ 4096 * c.toNat + 4095 := by
  rw [← BitVec.toNat_inj, field, BitVec.extractLsb'_toNat, Nat.shiftRight_eq_div_pow]
  omega

theorem and_selector_eq_iff (w : Word) (c : BitVec 4) : w &&& 0xF000 = place c 12 ↔ field w 12 4 = c := by
  have hw : w &&& 0xF000 = place (field w 12 4) 12 := (place_field w 12 4).symm
  rw [hw]
  refine ⟨fun h => ?_, fun h => h ▸ rfl⟩
  rw [← field_place_same (lo := 12) (field w 12 4) (by decide), h, field_place_same c (by decide)]

end Sys2Proof.Proofs.Fields
end

section
/-! Decoder and encoder meet in the rows of rule R62. A Word that matches a row decodes to the row's form with the
operands read out of it (`decode_of_match`), and that instruction encodes to the Word again but for the bits of
rule R64 (`encode_reread_of_match`). The statements on single Words and on ignored bits follow from these two. -/

namespace Sys2Proof.Proofs.Codec

open Sys2Proof.Laws Sys2Proof.Proofs.Fields

/-- The instruction of the same form with its operands read out of a Word (rules R52 to R60). -/
def reread (w : Word) : Instr → Instr
  | .br _ _ _ _ => .br (bit w 11) (bit w 10) (bit w 9) (field w 0 9)
  | .add _ _ _ => .add (regHi w) (regMid w) (regLo w)
  | .addi _ _ _ => .addi (regHi w) (regMid w) (field w 0 5)
  | .ld _ _ => .ld (regHi w) (field w 0 9)
  | .st _ _ => .st (regHi w) (field w 0 9)
  | .jsr _ => .jsr (field w 0 11)
  | .jsrr _ => .jsrr (regMid w)
  | .and _ _ _ => .and (regHi w) (regMid w) (regLo w)
  | .andi _ _ _ => .andi (regHi w) (regMid w) (field w 0 5)
  | .ldr _ _ _ => .ldr (regHi w) (regMid w) (field w 0 6)
  | .str _ _ _ => .str (regHi w) (regMid w) (field w 0 6)
  | .res8 => .res8
  | .not _ _ => .not (regHi w) (regMid w)
  | .ldi _ _ => .ldi (regHi w) (field w 0 9)
  | .sti _ _ => .sti (regHi w) (field w 0 9)
  | .jmp _ => .jmp (regMid w)
  | .resd => .resd
  | .lea _ _ => .lea (regHi w) (field w 0 9)
  | .trap _ => .trap (field w 0 8)

/-- What the encoder emits in the bits that rule R64 lists as ignored (rule R68, assumption 13). -/
def filler : Instr → Word
  | .not _ _ => 0x003F
  | .br _ _ _ _ | .add _ _ _ | .addi _ _ _ | .ld _ _ | .st _ _ | .jsr _ | .jsrr _ | .and _ _ _
  | .andi _ _ _ | .ldr _ _ _ | .str _ _ _ | .res8 | .ldi _ _ | .sti _ _ | .jmp _ | .resd | .lea _ _
  | .trap _ => 0x0000

/-! ### Facts of the nineteen rows -/

@[simp] theorem row_reread (w : Word) (i : Instr) : (reread w i).row = i.row := by
  cases i <;> rfl

theorem mask_and_selector (i : Instr) : i.row.mask &&& 0xF000 = 0xF000 := by
  cases i <;> simp only [Instr.row] <;> decide

theorem unignored_and_mask (i : Instr) : ~~~i.row.ignored &&& i.row.mask = i.row.mask := by
  cases i <;> simp only [Instr.row] <;> decide

/-- The bits of a Word are the fixed ones, the operands' and the ignored ones. -/
theorem mask_or_operands (i : Instr) : i.row.mask ||| ~~~(i.row.mask ||| i.row.ignored) = ~~~i.row.ignored := by
  cases i <;> simp only [Instr.row] <;> decide

theorem filler_and_ignored (i : Instr) : filler i &&& i.row.ignored = filler i := by
  cases i <;> simp only [Instr.row, filler] <;> decide

theorem row_mem_opcodeMap (i : Instr) : i.row ∈ opcodeMap := by
  cases i <;> simp [opcodeMap, Instr.row]

theorem row_of_mem_opcodeMap : ∀ r ∈ opcodeMap, ∃ i : Instr, i.row = r := by
  simp [opcodeMap]

/-! ### Decoding what was encoded -/

/-- The selector decides the form, with bit 5 for the two ALU selectors and bit 11 for selector 0100. -/
theorem decode_of_match {w : Word} {i : Instr} (h : w &&& i.row.mask = i.row.pattern) :
    decode w = reread w i := by
  have hsel : w &&& 0xF000 = i.row.pattern &&& 0xF000 := by
    rw [← h, BitVec.and_assoc, mask_and_selector]
  rw [decode_by_bits, bit_of_masked hsel (k := 15) rfl, bit_of_masked hsel (k := 14) rfl,
    bit_of_masked hsel (k := 13) rfl, bit_of_masked hsel (k := 12) rfl]
  cases i with
  | add | addi | and | andi =>
    rw [bit_of_masked (k := 5) h (by simp [Instr.row, bit])]
    simp only [Instr.row]
    simp [reread, bit]
  | jsr | jsrr =>
    rw [bit_of_masked (k := 11) h (by simp [Instr.row, bit])]
    simp only [Instr.row]
    simp [reread, bit]
  | br | ld | st | ldr | str | res8 | not | ldi | sti | jmp | resd | lea | trap =>
    simp only [Instr.row]
    simp [reread, bit]

/-- Rule R62 for the encoder: the model's law for each form. -/
theorem encode_match (i : Instr) : encode i &&& i.row.mask = i.row.pattern := by
  cases i with
  | br => exact EncodedInRow.br ..
  | add => exact EncodedInRow.add ..
  | addi => exact EncodedInRow.addi ..
  | ld => exact EncodedInRow.ld ..
  | st => exact EncodedInRow.st ..
  | jsr => exact EncodedInRow.jsr ..
  | jsrr => exact EncodedInRow.jsrr ..
  | and => exact EncodedInRow.and ..
  | andi => exact EncodedInRow.andi ..
  | ldr => exact EncodedInRow.ldr ..
  | str => exact EncodedInRow.str ..
  | res8 => exact EncodedInRow.res8
  | not => exact EncodedInRow.not ..
  | ldi => exact EncodedInRow.ldi ..
  | sti => exact EncodedInRow.sti ..
  | jmp => exact EncodedInRow.jmp ..
  | resd => exact EncodedInRow.resd
  | lea => exact EncodedInRow.lea ..
  | trap => exact EncodedInRow.trap ..

/-- Every operand is read back from where the encoder put it: no two fields of a form overlap. -/
theorem reread_encode (i : Instr) : reread (encode i) i = i := by
  cases i <;> simp [reread, encode, regHi, regMid, regLo, field_or, field_ofNat, field_place_same,
    field_place_apart, placeBit]

/-- Settles O1: the Word lies in the instruction's row, so it decodes to that form, with the operands read
back. -/
theorem decodeInvertsEncode : Obligations.DecodeInvertsEncode := fun i =>
  (decode_of_match (encode_match i)).trans (reread_encode i)

/-! ### Encoding what was decoded -/

/-- Each operand put back is the Word's own bits there, and together the operands are all bits that are neither
fixed nor ignored. -/
theorem encode_reread (w : Word) (i : Instr) :
    encode (reread w i) = i.row.pattern ||| filler i ||| (w &&& ~~~(i.row.mask ||| i.row.ignored)) := by
  cases i <;> simp only [reread, encode, regHi, regMid, regLo, place_field, placeBit_bit, Instr.row, filler,
    BitVec.or_assoc, ← BitVec.and_or_distrib_left] <;> simp [place, ← BitVec.or_assoc]

theorem encode_reread_of_match {w : Word} {i : Instr} (h : w &&& i.row.mask = i.row.pattern) :
    encode (reread w i) = filler i ||| (w &&& ~~~i.row.ignored) := by
  rw [encode_reread, ← h, BitVec.or_comm _ (filler i), BitVec.or_assoc, ← BitVec.and_or_distrib_left,
    mask_or_operands]

theorem encode_and_ignored (i : Instr) : encode i &&& i.row.ignored = filler i := by
  have henc : encode i = filler i ||| (encode i &&& ~~~i.row.ignored) := by
    rw [← encode_reread_of_match (encode_match i), reread_encode]
  rw [henc, BitVec.and_or_distrib_right, filler_and_ignored, BitVec.and_assoc]
  simp

theorem encode_reread_and_used {w : Word} {i : Instr} (h : w &&& i.row.mask = i.row.pattern) :
    encode (reread w i) &&& ~~~i.row.ignored = w &&& ~~~i.row.ignored := by
  rw [encode_reread_of_match h, ← filler_and_ignored, BitVec.and_or_distrib_right, BitVec.and_assoc,
    BitVec.and_assoc, BitVec.and_self]
  simp

/-! ### Every Word has a row -/

theorem and_dispatch_bits (w : Word) : w &&& 0xF820 =
    placeBit (bit w 15) 15 ||| placeBit (bit w 14) 14 ||| placeBit (bit w 13) 13 ||| placeBit (bit w 12) 12 |||
      placeBit (bit w 11) 11 ||| placeBit (bit w 5) 5 := by
  simp only [placeBit_bit, ← BitVec.and_or_distrib_left]
  rfl

/-- Each of the 64 values of the bits that the masks of rule R62 look at matches a row. -/
theorem dispatch_bits_complete : ∀ b15 b14 b13 b12 b11 b5 : Bool, ∃ r ∈ opcodeMap,
    0xF820 &&& r.mask = r.mask ∧ (placeBit b15 15 ||| placeBit b14 14 ||| placeBit b13 13 ||| placeBit b12 12 |||
      placeBit b11 11 ||| placeBit b5 5) &&& r.mask = r.pattern := by decide

/-- Rule R62: the row that the dispatch bits match is the row of what the Word decodes to. -/
theorem decode_match (w : Word) : w &&& (decode w).row.mask = (decode w).row.pattern := by
  obtain ⟨r, hr, hmask, hmatch⟩ :=
    dispatch_bits_complete (bit w 15) (bit w 14) (bit w 13) (bit w 12) (bit w 11) (bit w 5)
  rw [← and_dispatch_bits, BitVec.and_assoc, hmask] at hmatch
  obtain ⟨i, rfl⟩ := row_of_mem_opcodeMap r hr
  rw [decode_of_match hmatch, row_reread, hmatch]

theorem decode_eq_reread_iff {w : Word} {i : Instr} :
    decode w = reread w i ↔ w &&& i.row.mask = i.row.pattern := by
  refine ⟨fun h => ?_, decode_of_match⟩
  have hmatch := decode_match w
  rwa [h, row_reread] at hmatch

theorem reread_decode (w : Word) : reread w (decode w) = decode w :=
  (decode_of_match (decode_match w)).symm

/-- Settles O2: a Word matches the row of what it decodes to. -/
theorem encodeOfDecodeKeepsEveryUsedBit : Obligations.EncodeOfDecodeKeepsEveryUsedBit := fun w => by
  have hused := encode_reread_and_used (decode_match w)
  rw [reread_decode] at hused
  exact (xor_and_eq_zero_iff _ _ _).2 hused

theorem match_iff_eq_row_decode (w : Word) {r : OpRow} (hr : r ∈ opcodeMap) :
    w &&& r.mask = r.pattern ↔ r = (decode w).row := by
  refine ⟨fun h => ?_, fun h => h ▸ decode_match w⟩
  obtain ⟨i, rfl⟩ := row_of_mem_opcodeMap r hr
  rw [decode_of_match h, row_reread]

/-- Settles O3: a Word matches its own row, and a row that it matches is the row of what it decodes to. -/
theorem everyWordSelectsExactlyItsRow : Obligations.EveryWordSelectsExactlyItsRow :=
  ⟨rfl, fun w => ⟨row_mem_opcodeMap _, fun _ hr => match_iff_eq_row_decode w hr⟩⟩

/-! ### Ignored bits -/

theorem match_of_used_eq {w w' : Word} {i : Instr} (h : w &&& ~~~i.row.ignored = w' &&& ~~~i.row.ignored)
    (hw : w &&& i.row.mask = i.row.pattern) : w' &&& i.row.mask = i.row.pattern := by
  rw [← hw, ← unignored_and_mask, ← BitVec.and_assoc, ← BitVec.and_assoc, h]

/-- The two Words match one row and give one Word when encoded again, which decodes to one instruction. -/
theorem decode_eq_of_used_eq {w w' : Word}
    (h : w &&& ~~~(decode w).row.ignored = w' &&& ~~~(decode w).row.ignored) : decode w' = decode w := by
  have hw := decode_match w
  have hw' := match_of_used_eq h hw
  have henc : encode (reread w' (decode w)) = encode (reread w (decode w)) := by
    rw [encode_reread_of_match hw, encode_reread_of_match hw', h]
  calc
    decode w' = reread w' (decode w) := decode_of_match hw'
    _ = decode (encode (reread w' (decode w))) := (decodeInvertsEncode _).symm
    _ = decode w := by rw [henc, decodeInvertsEncode, reread_decode]

theorem filler_of_mnemonic_ne {i : Instr} (h : i.row.mnemonic ≠ "NOT") : filler i = 0 := by
  cases i with
  | not => exact absurd rfl h
  | br | add | addi | ld | st | jsr | jsrr | and | andi | ldr | str | res8 | ldi | sti | jmp | resd | lea
  | trap => rfl

end Sys2Proof.Proofs.Codec
end

section
/-! The two reserved selectors of rule R63: which Words have them, what a step does at one, and that every other
Word completes. Then what rule R64 says of ignored bits, no Word being illegal for them. -/

namespace Sys2Proof.Proofs.Reserved

open Sys2Proof.Machine Sys2Proof.Claims Sys2Proof.Laws Sys2Proof.Proofs.Fields Sys2Proof.Proofs.Codec

theorem isDefined_eq_false_iff (i : Instr) : i.isDefined = false ↔ i = .res8 ∨ i = .resd := by
  cases i <;> simp [Instr.isDefined]

theorem decode_eq_res8_iff (w : Word) : decode w = .res8 ↔ field w 12 4 = 0b1000 :=
  (decode_eq_reread_iff (i := .res8)).trans (and_selector_eq_iff w 0b1000)

theorem decode_eq_resd_iff (w : Word) : decode w = .resd ↔ field w 12 4 = 0b1101 :=
  (decode_eq_reread_iff (i := .resd)).trans (and_selector_eq_iff w 0b1101)

theorem reservedSelector_iff (w : Word) : reservedSelector w = true ↔ (decode w).isDefined = false := by
  rw [isDefined_eq_false_iff, decode_eq_res8_iff, decode_eq_resd_iff]
  simp [reservedSelector, field]

theorem exec_of_isDefined {i : Instr} (h : i.isDefined = true) (s : State) : ∃ t, exec i s = .next t := by
  obtain ⟨dr, v, -, he⟩ | ⟨a, v, -, -, -, he⟩ | ⟨p, -, -, he⟩ | ⟨p, -, -, -, he⟩ | ⟨hundef, -⟩ := exec_shape i s
  · exact ⟨_, he⟩
  · exact ⟨_, he⟩
  · exact ⟨_, he⟩
  · exact ⟨_, he⟩
  · cases h.symm.trans hundef

theorem exec_of_not_isDefined {i : Instr} (h : i.isDefined = false) (s : State) :
    exec i s = raiseIllegalOpcode s := by
  obtain rfl | rfl := (isDefined_eq_false_iff i).1 h <;> rfl

theorem isDefined_of_exec_fault {i : Instr} {s : State} {f : Fault} (h : exec i s = .fault f) :
    i.isDefined = false := by
  by_contra hdef
  obtain ⟨t, ht⟩ := exec_of_isDefined (Bool.eq_true_of_not_eq_false hdef) s
  cases ht.symm.trans h

theorem hostStep_of_fault {s : State} {ir : Word} (h : step s = .fault (.illegalOpcode ir)) :
    hostStep s = (s, .illegalOpcode ir) := by
  unfold hostStep
  rw [h]

theorem reportsIllegal_of_not_isDefined {s : State} (h : (decode (s.memRead s.pc)).isDefined = false) :
    ReportsIllegal s := by
  have hstep : step s = .fault (.illegalOpcode (s.memRead s.pc)) := exec_of_not_isDefined h s
  have hhost := hostStep_of_fault hstep
  exact ⟨hstep, hhost, by rw [hhost, hhost]⟩

/-- Settles O5: the placeholders' rows fix the selector alone, and a step completes unless it runs one of them. -/
theorem onlyTheReservedSelectorsArePlaceholders : Obligations.OnlyTheReservedSelectorsArePlaceholders := by
  intro w
  refine ⟨(decode_eq_res8_iff w).trans (field_selector_eq_iff w _),
    (decode_eq_resd_iff w).trans (field_selector_eq_iff w _), ?_⟩
  rintro s rfl
  cases hdef : (decode (s.memRead s.pc)).isDefined with
  | false => exact .inl ⟨(isDefined_eq_false_iff _).1 hdef, reportsIllegal_of_not_isDefined hdef⟩
  | true => exact .inr ⟨rfl, exec_of_isDefined hdef s⟩

/-- Settles O4: the used bits decide the decoding, and the encoder's ignored bits are its filler. -/
theorem ignoredBitsChangeNothing : Obligations.IgnoredBitsChangeNothing := by
  refine ⟨rfl, fun w w' h => ?_, fun dr sr => encode_and_ignored (.not dr sr),
    fun i hi => (encode_and_ignored i).trans (filler_of_mnemonic_ne hi)⟩
  have hdec : decode w' = decode w := decode_eq_of_used_eq ((xor_and_eq_zero_iff _ _ _).1 h)
  exact ⟨hdec, fun s => by rw [hdec], fun s f hf => (reservedSelector_iff w).2 (isDefined_of_exec_fault hf)⟩

end Sys2Proof.Proofs.Reserved
end

section
/-! Numbers written on source lines (rules R66 and R68), and the Words that the spec lists with their
instructions. -/

namespace Sys2Proof.Proofs.Assembly

open Sys2Proof.Claims Sys2Proof.Proofs.Codec

theorem signedOk_iff (n : Nat) (v : Int) :
    AsmLine.signedOk n v = true ↔ -(2 ^ (n - 1)) ≤ v ∧ v < 2 ^ (n - 1) := by
  simp [AsmLine.signedOk]

/-- A line whose one check is the number's range, and whose Word holds the number's low `n` bits. -/
theorem assemblesNumber_of_signedOk {n : Nat} {line : Int → AsmLine} {mk : BitVec n → Instr} (hn : 0 < n)
    (hrange : ∀ v, (line v).wellFormed = AsmLine.signedOk n v)
    (hword : ∀ v, (line v).word = encode (mk (asmSigned n v))) : AssemblesNumber n line mk := by
  intro v
  rw [← signedOk_iff, assemble, hrange, hword]
  by_cases h : AsmLine.signedOk n v = true
  · obtain ⟨hlo, hhi⟩ := (signedOk_iff n v).1 h
    have hv : (asmSigned n v).toInt = v := BitVec.toInt_ofInt_eq_self hn hlo hhi
    exact .inl ⟨hlo, hhi, _, _, if_pos h, decodeInvertsEncode _, hv⟩
  · exact .inr ⟨h, if_neg h⟩

@[simp] theorem regOk_fin (d : Fin 8) : AsmLine.regOk d = true := decide_eq_true d.isLt

@[simp] theorem asmReg_fin (d : Fin 8) : asmReg d = BitVec.ofFin d :=
  BitVec.eq_of_toNat_eq (Nat.mod_eq_of_lt d.isLt)

/-- Settles O7: the registers of the four lines are in range, so the number's range is their only check. -/
theorem writtenNumbersSurviveAssemblyAndDecoding : Obligations.WrittenNumbersSurviveAssemblyAndDecoding := by
  refine ⟨fun d a => assemblesNumber_of_signedOk (by decide) ?_ ?_,
    fun d b => assemblesNumber_of_signedOk (by decide) ?_ ?_,
    fun d => assemblesNumber_of_signedOk (by decide) ?_ ?_,
    assemblesNumber_of_signedOk (by decide) (fun _ => rfl) fun _ => rfl⟩ <;>
  simp [AsmLine.wellFormed, AsmLine.word]

/-- Settles O6: each of the listed Words is decoded. -/
theorem listedWordsDecodeAsTheSpecLists : Obligations.ListedWordsDecodeAsTheSpecLists := rfl

end Sys2Proof.Proofs.Assembly
end

section
/-! The flag that `setcc` leaves (rule R86) and the ALU's operations (rule R88). -/

namespace Sys2Proof.Proofs.Alu

open Sys2Proof.Machine Sys2Proof.Claims Sys2Proof.Proofs.Cond

/-- Settles O10: COND is the generator's flag of the Word's sign, and `setcc` writes only COND. -/
theorem setccLeavesTheFlagOfTheSign : Obligations.SetccLeavesTheFlagOfTheSign := fun _ v =>
  have ⟨hneg, hzero, hpos⟩ : FlagOf v (ccOf v) := flagOf_ccOf v
  ⟨hneg, hzero, hpos, rfl, rfl, rfl⟩

/-- Rule R104 writes the complement as an exclusive or with all ones. -/
theorem aluNot_eq_not (a : Word) : aluNot a = ~~~a := BitVec.xor_allOnes

theorem aluNot_getLsbD (a : Word) {k : Nat} (hk : k < 16) : (aluNot a).getLsbD k = !a.getLsbD k := by
  rw [aluNot_eq_not, BitVec.getLsbD_not, decide_eq_true hk, Bool.true_and]

theorem aluNot_toNat (a : Word) : (aluNot a).toNat = 0xFFFF - a.toNat := by
  rw [aluNot_eq_not, BitVec.toNat_not]

/-- Settles O11: both sums are the addition of Words, and the complement flips each of the sixteen bits. -/
theorem aluComputesModulo65536AndBitwise : Obligations.AluComputesModulo65536AndBitwise := fun a b =>
  ⟨BitVec.toNat_add a b, fun _ => BitVec.getLsbD_and, fun _ hk => aluNot_getLsbD a hk, aluNot_toNat a,
    fun _ f => BitVec.toNat_add a (sext16 f)⟩

end Sys2Proof.Proofs.Alu
end

section
/-! The cycle of rule R84: what a step runs, where it leaves PC, and what the host is told of it (rule R89). -/

namespace Sys2Proof.Proofs.StepCycle

open Sys2Proof.Machine Sys2Proof.Laws Sys2Proof.Proofs.Reserved

theorem step_of_fetch {s : State} {w : Word} (h : s.fetch = w) : step s = exec (decode w) s :=
  congrArg (fun u => exec (decode u) s) h

/-- Settles O31: the fetched Word is the one at PC. -/
theorem stepRunsTheDecodedWord : Obligations.StepRunsTheDecodedWord := fun s _ h => h ▸ step_def s

theorem withFetchWord_fetch_toNat (s : State) (w : Word) : (s.withFetchWord 16 w.toNat).fetch = w := by
  rw [withFetchWord_fetch, BitVec.toNat_mod_cancel, BitVec.ofNat_toNat, BitVec.setWidth_eq]

/-- Settles O32: the placing is a write at PC, which the next fetch reads back. -/
theorem placedWordIsTheNextToRun : Obligations.PlacedWordIsTheNextToRun := fun s w =>
  ⟨step_of_fetch (withFetchWord_fetch_toNat s w), fun a ha => read_write_ne s.mem s.pc a _ ha⟩

/-- Settles O39: of the five shapes only a producer and a store are neither transfers nor undefined, and both
advance PC. -/
theorem onlyTransfersLeaveTheNextWord : Obligations.OnlyTransfersLeaveTheNextWord := by
  intro i s hseq hdef
  obtain ⟨dr, v, -, he⟩ | ⟨a, v, -, -, -, he⟩ | ⟨p, -, htr, -⟩ | ⟨p, -, -, htr, -⟩ | ⟨hundef, -⟩ := exec_shape i s
  · exact ⟨_, he, rfl⟩
  · exact ⟨_, he, rfl⟩
  · cases hseq.symm.trans htr
  · cases hseq.symm.trans htr
  · cases hdef.symm.trans hundef

theorem hostStep_of_next {s t : State} (h : step s = .next t) :
    hostStep s = (t, .executed (decode (s.memRead s.pc))) := by
  unfold hostStep
  rw [h]
  rfl

/-- Settles O34: a defined instruction completes and is named; of a placeholder the step reports the Word. -/
theorem stepResultNamesWhatHappened : Obligations.StepResultNamesWhatHappened := by
  intro s
  cases hdef : (decode (s.memRead s.pc)).isDefined with
  | true =>
    obtain ⟨t, ht⟩ : ∃ t, step s = .next t := exec_of_isDefined hdef s
    exact .inl ⟨t, ht, rfl, hostStep_of_next ht⟩
  | false =>
    obtain ⟨-, hhost, -⟩ := reportsIllegal_of_not_isDefined hdef
    exact .inr ⟨(reservedSelector_iff _).2 hdef, hhost⟩

end Sys2Proof.Proofs.StepCycle
end


section
/-! The operate instructions of spec/41_operate.md. Each ends in `produce`, so what remains of a statement is
the row of its Words and the value that the ALU computes. -/

namespace Sys2Proof.Proofs.Operate

open Sys2Proof.Machine Sys2Proof.Claims Sys2Proof.Laws Sys2Proof.Proofs.Cond Sys2Proof.Proofs.Codec
  Sys2Proof.Proofs.Addresses Sys2Proof.Proofs.Alu

/-- An instruction that advances PC and ends in `produce` has the whole effect of a data-producing form. -/
theorem produces_of_exec {i : Instr} {s : State} {dr : RegIx} {v : Word}
    (h : exec i s = .next (s.advance.produce dr v)) : Produces i s dr v :=
  have ⟨hdr, hcond, hpc, hmem, hregs⟩ := produce_spec s dr v
  ⟨_, h, hdr, hcond ▸ flagOf_ccOf v, hpc, hregs, fun a => congrArg (·.read a) hmem⟩

/-! ### The values -/

theorem aluAdd_eq_ofNat (a b : Word) : aluAdd a b = BitVec.ofNat 16 ((a.toNat + b.toNat) % 65536) := by
  rw [← BitVec.toNat_add a b, BitVec.ofNat_toNat, BitVec.setWidth_eq, aluAdd]

theorem aluNot_eq_sub (a : Word) : aluNot a = 0xFFFF - a :=
  (aluNot_eq_not a).trans (BitVec.allOnes_sub_eq_not a).symm

/-- Two's complement: 0xFFFF is the predecessor of 0. -/
theorem wrap_complement_one (a : Word) : wrap (0xFFFF - a) (1 : BitVec 5).toInt = 0 - a := by
  have hsucc : (0xFFFF : Word) + 1 = 0 := rfl
  calc
    wrap (0xFFFF - a) (1 : BitVec 5).toInt = 0xFFFF - a + 1 := (addressAdd_eq_wrap _ _).symm
    _ = 0 - a := by rw [sub_add_eq_add_sub, hsucc]

/-! ### The instructions -/

/-- Settles O12: the ALU's sum of the two start-of-step registers goes into DR. -/
theorem addPutsTheWrappedSumInDr : Obligations.AddPutsTheWrappedSumInDr :=
  ⟨fun _ h => decode_of_match (i := .add 0 0 0) h,
    fun _ _ _ _ => aluAdd_eq_ofNat _ _ ▸ produces_of_exec rfl⟩

/-- Settles O13: adding the extended immediate is the sum that the address adder makes. -/
theorem addImmediatePutsTheWrappedSumInDr : Obligations.AddImmediatePutsTheWrappedSumInDr :=
  ⟨fun _ h => decode_of_match (i := .addi 0 0 0) h,
    fun _ _ _ _ => addressAdd_eq_wrap _ _ ▸ produces_of_exec rfl⟩

/-- Settles O14: the model's value is the bitwise AND itself. -/
theorem andPutsTheBitwiseAndInDr : Obligations.AndPutsTheBitwiseAndInDr :=
  ⟨fun _ h => decode_of_match (i := .and 0 0 0) h, fun _ _ _ _ => produces_of_exec rfl⟩

/-- Settles O15: the extended immediate is the Word of its signed reading. -/
theorem andImmediatePutsTheBitwiseAndInDr : Obligations.AndImmediatePutsTheBitwiseAndInDr :=
  ⟨fun _ h => decode_of_match (i := .andi 0 0 0) h, fun _ _ _ _ => produces_of_exec rfl⟩

/-- Settles O16: the exclusive or with all ones is the subtraction from 0xFFFF. -/
theorem notPutsTheComplementInDr : Obligations.NotPutsTheComplementInDr :=
  ⟨fun _ h => decode_of_match (i := .not 0 0) h, fun _ _ _ => aluNot_eq_sub _ ▸ produces_of_exec rfl⟩

/-- Settles O42: the second instruction finds in the register the complement that the first one left. -/
theorem notTwiceRestoresAndNotAddOneNegates : Obligations.NotTwiceRestoresAndNotAddOneNegates := by
  intro r s
  obtain ⟨-, hnot⟩ := notPutsTheComplementInDr
  obtain ⟨-, haddi⟩ := addImmediatePutsTheWrappedSumInDr
  obtain ⟨t, ht, htr, -⟩ := hnot r r s
  obtain ⟨u, hu, hur, -⟩ := hnot r r t
  obtain ⟨v, hv, hvr, -⟩ := haddi r r 1 t
  refine ⟨t, u, v, ht, hu, ?_, hv, ?_⟩
  · rw [hur, htr, sub_sub_cancel]
  · rw [hvr, htr, wrap_complement_one]

end Sys2Proof.Proofs.Operate
end


section
/-! The data movement instructions of spec/42_data_movement.md. A load and LEA end in `produce`, a store in
`memWrite`, so what remains of a statement is the row of its Words and its address as a sum modulo 65536. -/

namespace Sys2Proof.Proofs.DataMovement

open Sys2Proof.Machine Sys2Proof.Claims Sys2Proof.Laws Sys2Proof.Proofs.Codec Sys2Proof.Proofs.Addresses
  Sys2Proof.Proofs.Operate

/-- An instruction that advances PC and ends in `memWrite` has the whole effect of a store. -/
theorem stores_of_exec {i : Instr} {s : State} {a v : Word}
    (h : exec i s = .next (s.advance.memWrite a v)) : Stores i s a v :=
  have ⟨hread, hcond, hpc, _, hframe⟩ := store_spec s a v
  ⟨_, h, hread, hframe, hpc, hcond, fun _ => rfl⟩

/-! ### The addresses -/

theorem eaIndirect_eq_memRead_wrap (s : State) (off9 : BitVec 9) :
    s.eaIndirect off9 = s.memRead (wrap (s.pc + 1) off9.toInt) :=
  congrArg s.memRead (eaPc9_eq_wrap s off9)

theorem eaBase_eq_wrap (s : State) (base : RegIx) (off6 : BitVec 6) :
    s.eaBase base off6 = wrap (s.readReg base) off6.toInt :=
  addressAdd_eq_wrap (s.readReg base) off6

theorem wrap_eq_add_ofInt (a : Word) (k : Int) : wrap a k = a + BitVec.ofInt 16 k := by
  rw [wrap, BitVec.ofInt_add, BitVec.ofInt_natCast, BitVec.ofNat_toNat, BitVec.setWidth_eq]

/-- Conflict C7: seen from the next Word, the same address is one less away. -/
theorem wrap_succ_pred (a : Word) (k : Int) : wrap (a + 1) (k - 1) = wrap a k := by
  have hone : BitVec.ofInt 16 1 = 1 := rfl
  calc
    wrap (a + 1) (k - 1) = a + 1 + BitVec.ofInt 16 (k - 1) := wrap_eq_add_ofInt _ _
    _ = a + BitVec.ofInt 16 (1 + (k - 1)) := by rw [BitVec.ofInt_add, hone, BitVec.add_assoc]
    _ = wrap a k := by rw [add_sub_cancel, wrap_eq_add_ofInt]

/-! ### The instructions -/

/-- Settles O17: the Word at the PC-relative address goes into DR. -/
theorem loadPutsTheWordAtTheAddressInDr : Obligations.LoadPutsTheWordAtTheAddressInDr :=
  ⟨fun _ h => decode_of_match (i := .ld 0 0) h,
    fun _ off9 s => eaPc9_eq_wrap s off9 ▸ produces_of_exec rfl⟩

/-- Settles O18: the one Word written is at the PC-relative address. -/
theorem storeWritesSrAtTheAddress : Obligations.StoreWritesSrAtTheAddress :=
  ⟨fun _ h => decode_of_match (i := .st 0 0) h,
    fun _ off9 s => ⟨eaPc9_eq_wrap s off9, stores_of_exec rfl⟩⟩

/-- Settles O19: the Word at the pointer goes into DR, so the flag is that Word's. -/
theorem loadIndirectPutsThePointersWordInDr : Obligations.LoadIndirectPutsThePointersWordInDr :=
  ⟨fun _ h => decode_of_match (i := .ldi 0 0) h,
    fun _ off9 s => eaIndirect_eq_memRead_wrap s off9 ▸ produces_of_exec rfl⟩

/-- Settles O20: the pointer is read off the start-of-step state, before the one write. -/
theorem storeIndirectWritesSrAtThePointer : Obligations.StoreIndirectWritesSrAtThePointer :=
  ⟨fun _ h => decode_of_match (i := .sti 0 0) h,
    fun _ off9 s => ⟨eaIndirect_eq_memRead_wrap s off9, stores_of_exec rfl⟩⟩

/-- Settles O21: the base is the start-of-step register, also where it is DR. -/
theorem loadRegisterPutsTheWordAtTheAddressInDr : Obligations.LoadRegisterPutsTheWordAtTheAddressInDr :=
  ⟨fun _ h => decode_of_match (i := .ldr 0 0 0) h,
    fun _ base off6 s => eaBase_eq_wrap s base off6 ▸ produces_of_exec rfl⟩

/-- Settles O22: the one Word written is at the base register's address. -/
theorem storeRegisterWritesSrAtTheAddress : Obligations.StoreRegisterWritesSrAtTheAddress :=
  ⟨fun _ h => decode_of_match (i := .str 0 0 0) h,
    fun _ base off6 s => ⟨eaBase_eq_wrap s base off6, stores_of_exec rfl⟩⟩

/-- Settles O23: the PC-relative address itself goes into DR, and no data access is listed. -/
theorem loadEffectiveAddressPutsTheAddressInDr : Obligations.LoadEffectiveAddressPutsTheAddressInDr :=
  ⟨fun _ h => decode_of_match (i := .lea 0 0) h,
    fun _ off9 s => ⟨eaPc9_eq_wrap s off9 ▸ produces_of_exec rfl, rfl⟩⟩

/-- Settles O43: both offsets fit in nine bits, so the load reads the address that the store wrote. -/
theorem storeThenLoadGivesTheStoredWord : Obligations.StoreThenLoadGivesTheStoredWord := by
  intro s r q k hlo hhi
  obtain ⟨-, hst⟩ := storeWritesSrAtTheAddress
  obtain ⟨-, hld⟩ := loadPutsTheWordAtTheAddressInDr
  obtain ⟨hea, t, ht, hstored, -, hpc, -⟩ := hst r (BitVec.ofInt 9 k) s
  obtain ⟨u, hu, hloaded, -⟩ := hld q (BitVec.ofInt 9 (k - 1)) t
  have hk : (BitVec.ofInt 9 k).toInt = k := BitVec.toInt_ofInt_eq_self (by decide) (by omega) (by omega)
  have hk' : (BitVec.ofInt 9 (k - 1)).toInt = k - 1 :=
    BitVec.toInt_ofInt_eq_self (by decide) (by omega) (by omega)
  have haddr : wrap (t.pc + 1) (BitVec.ofInt 9 (k - 1)).toInt = s.eaPc9 (BitVec.ofInt 9 k) := by
    rw [hea, hpc, hk, hk', wrap_succ_pred]
  exact ⟨t, u, ht, hu, by rw [hloaded, haddr, hstored]⟩

end Sys2Proof.Proofs.DataMovement
end


section
/-! The control transfers of spec/43_control.md. BR and JMP end in `setPc`, JSR and JSRR in `link` and then
`setPc`, so what remains of a statement is the row of its Words and the Word that goes into PC. -/

namespace Sys2Proof.Proofs.Control

open Sys2Proof.Machine Sys2Proof.Claims Sys2Proof.Laws Sys2Proof.Proofs.Fields Sys2Proof.Proofs.Codec
  Sys2Proof.Proofs.Addresses

/-- An instruction that only sets PC has the whole effect of a transfer without link. -/
theorem goesTo_of_exec {i : Instr} {s : State} {p : Word} (h : exec i s = .next (s.setPc p)) : GoesTo i s p :=
  ⟨_, h, rfl, rfl, fun _ => rfl, fun _ => rfl⟩

/-- An instruction that links and then sets PC has the whole effect of a transfer with link. -/
theorem linksTo_of_exec {i : Instr} {s : State} {p : Word} (h : exec i s = .next (s.link.setPc p)) :
    LinksTo i s p :=
  have ⟨hlink, hcond, _, hmem, hregs⟩ := link_spec s
  ⟨_, h, hlink, rfl, hcond, hregs, fun a => congrArg (·.read a) hmem⟩

/-! ### Branch's test -/

/-- Decision D3: the three flags are COND's bits 2 to 0, N first. -/
theorem condFlags_eq_append (c : Word) : c.extractLsb' 0 3 =
    BitVec.ofBool (c.getLsbD 2) ++ BitVec.ofBool (c.getLsbD 1) ++ BitVec.ofBool (c.getLsbD 0) := by
  have hflag (k : Nat) : BitVec.ofBool (c.getLsbD k) = c.extractLsb' k 1 := ofBool_bit c k
  rw [hflag, hflag, hflag,
    BitVec.extractLsb'_append_extractLsb'_eq_extractLsb' (start₂ := 2) (start₁ := 1) rfl,
    BitVec.extractLsb'_append_extractLsb'_eq_extractLsb' (start₂ := 1) (start₁ := 0) rfl]

/-- Rule R120 bit by bit: the mask meets the flags where a mask bit and its flag are both set. -/
theorem branchTaken_iff (n z p : Bool) (c : Word) : branchTaken n z p c = true ↔
    (BitVec.ofBool n ++ BitVec.ofBool z ++ BitVec.ofBool p : BitVec 3) &&& c.extractLsb' 0 3 ≠ 0 := by
  rw [condFlags_eq_append, branchTaken]
  generalize c.getLsbD 2 = cn, c.getLsbD 1 = cz, c.getLsbD 0 = cp
  revert n z p cn cz cp
  decide

theorem exec_br (n z p : Bool) (off9 : BitVec 9) (s : State) : exec (.br n z p off9) s =
    .next (s.setPc (if branchTaken n z p s.cond then s.eaPc9 off9 else s.npc)) :=
  congrArg Host.Outcome.next (apply_ite s.setPc _ _ _).symm

/-! ### The targets -/

theorem eaPc11_eq_wrap (s : State) (off11 : BitVec 11) : s.eaPc11 off11 = wrap (s.pc + 1) off11.toInt :=
  addressAdd_eq_wrap s.npc off11

/-- Decision D6: after the link R7 holds the address of the next Word, every other register what it did. -/
theorem link_readReg (s : State) (base : RegIx) :
    s.link.readReg base = if base = 7 then s.pc + 1 else s.readReg base :=
  writeReg_readReg s.advance linkReg base s.npc

/-! ### The instructions -/

/-- Settles O24: both targets go through the same `setPc`, and the test is the mask's meeting with COND. -/
theorem branchIsTakenWhenTheMaskMeetsCond : Obligations.BranchIsTakenWhenTheMaskMeetsCond := by
  refine ⟨fun _ h => decode_of_match (i := .br false false false 0) h, fun n z p off9 s => ?_⟩
  have hbr := exec_br n z p off9 s
  simp only [branchTaken_iff, eaPc9_eq_wrap] at hbr
  exact goesTo_of_exec hbr

/-- Settles O25: the base register is read and only PC is set. -/
theorem jumpGoesToTheBaseRegister : Obligations.JumpGoesToTheBaseRegister :=
  ⟨fun _ h => decode_of_match (i := .jmp 0) h, fun _ _ => goesTo_of_exec rfl⟩

/-- Settles O26: the target is read off the start-of-step state, where `npc` is what R7 gets. -/
theorem jsrLinksAndGoesToTheOffset : Obligations.JsrLinksAndGoesToTheOffset :=
  ⟨fun _ h => decode_of_match (i := .jsr 0) h,
    fun off11 s => eaPc11_eq_wrap s off11 ▸ linksTo_of_exec rfl⟩

/-- Settles O27: the base is read after the link. -/
theorem jsrrLinksAndGoesToTheBaseRegister : Obligations.JsrrLinksAndGoesToTheBaseRegister :=
  ⟨fun _ h => decode_of_match (i := .jsrr 0) h,
    fun base s => link_readReg s base ▸ linksTo_of_exec rfl⟩

end Sys2Proof.Proofs.Control
end


section
/-! TRAP and the two reserved selectors of spec/44_trap_and_reserved.md. TRAP ends in `link` and then `setPc`, and
a placeholder always in the report, so what remains of a statement is the row of its Words, the table's entry and
what the host is told. -/

namespace Sys2Proof.Proofs.TrapAndReserved

open Sys2Proof.Machine Sys2Proof.Claims Sys2Proof.Laws Sys2Proof.Proofs.Codec Sys2Proof.Proofs.Addresses
  Sys2Proof.Proofs.Reserved Sys2Proof.Proofs.StepCycle Sys2Proof.Proofs.Control

/-! ### TRAP -/

/-- Rule R89: where a defined instruction is next, the host is told its name. -/
theorem hostStep_result_of_isDefined {s : State} {i : Instr} (h : decode (s.memRead s.pc) = i)
    (hdef : i.isDefined = true) : (hostStep s).2 = .executed i := by
  subst h
  obtain ⟨t, ht⟩ : ∃ t, step s = .next t := exec_of_isDefined hdef s
  rw [hostStep_of_next ht]

/-- Settles O28: the entry is read in memory that the link leaves as it was, and TRAP is a defined form. -/
theorem trapLinksAndGoesThroughTheTable : Obligations.TrapLinksAndGoesThroughTheTable :=
  ⟨fun _ h => decode_of_match (i := .trap 0) h,
    fun vec8 _ => ⟨trapEntryAddr_eq_ofNat vec8 ▸ linksTo_of_exec rfl,
      fun h => hostStep_result_of_isDefined h rfl⟩⟩

/-! ### The reserved selectors -/

/-- The operands a form takes from a Word do not decide whether it is defined. -/
theorem isDefined_reread (w : Word) (i : Instr) : (reread w i).isDefined = i.isDefined := by
  cases i <;> rfl

/-- Rule R40: a placeholder's step makes no access after the fetch. -/
theorem dataAccesses_of_not_isDefined {i : Instr} (h : i.isDefined = false) (s : State) :
    dataAccesses i s = [] := by
  obtain rfl | rfl := (isDefined_eq_false_iff i).1 h <;> rfl

/-- Rules R131 and R132 for either placeholder: what its meaning does, and what a step does at a Word of its
row. -/
theorem placeholder_reports {i : Instr} (h : i.isDefined = false) (s : State) :
    exec i s = .fault (.illegalOpcode (s.memRead s.pc)) ∧ dataAccesses i s = [] ∧
    (s.memRead s.pc &&& i.row.mask = i.row.pattern → ReportsIllegal s) := by
  refine ⟨(exec_of_not_isDefined h s).trans (raiseIllegalOpcode_spec s), dataAccesses_of_not_isDefined h s,
    fun hw => ?_⟩
  have hundef : (decode (s.memRead s.pc)).isDefined = false := by
    rw [decode_of_match hw, isDefined_reread, h]
  exact reportsIllegal_of_not_isDefined hundef

/-- Settles O29: selector 1000 is the row of the first placeholder. -/
theorem selector1000ReportsIllegalOpcode : Obligations.Selector1000ReportsIllegalOpcode :=
  ⟨fun _ h => decode_of_match (i := .res8) h, placeholder_reports (i := .res8) rfl⟩

/-- Settles O30: selector 1101 is the row of the second placeholder. -/
theorem selector1101ReportsIllegalOpcode : Obligations.Selector1101ReportsIllegalOpcode :=
  ⟨fun _ h => decode_of_match (i := .resd) h, placeholder_reports (i := .resd) rfl⟩

end Sys2Proof.Proofs.TrapAndReserved
end


section
/-! The exceptions of spec/60_exceptions.md: the one condition a step reports, and the return from a link. A step
completes or reports as the fetched Word's instruction is defined or not; a link puts the next Word's address into
R7, where a jump to R7 finds it, and that jump sets nothing but PC. -/

namespace Sys2Proof.Proofs.Exceptions

open Sys2Proof.Machine Sys2Proof.Claims Sys2Proof.Laws Sys2Proof.Proofs.Reserved Sys2Proof.Proofs.StepCycle

/-! ### The reported condition -/

/-- Settles O33: the reserved selectors are those of the undefined forms, and every defined form completes. -/
theorem stepCompletesUnlessTheSelectorIsReserved : Obligations.StepCompletesUnlessTheSelectorIsReserved := by
  intro s
  split
  next hres => exact reportsIllegal_of_not_isDefined ((reservedSelector_iff _).1 hres)
  next hres =>
    have hdef : (decode (s.memRead s.pc)).isDefined = true := by
      rwa [reservedSelector_iff, Bool.not_eq_false] at hres
    obtain ⟨t, ht⟩ : ∃ t, step s = .next t := exec_of_isDefined hdef s
    exact ⟨t, ht, congrArg Prod.fst (hostStep_of_next ht)⟩

/-! ### The return from a link -/

/-- Rules R13 and R87: no data-producing form is a transfer. -/
theorem isTransfer_eq_false_of_dataDest {i : Instr} {dr : RegIx} (h : i.dataDest = some dr) :
    i.isTransfer = false := by
  cases i with
  | br | jmp | jsr | jsrr | trap => cases h
  | _ => rfl

/-- Rule R146: a transfer that writes a register links and then sets PC. -/
theorem exec_of_linking_transfer {i : Instr} {r : RegIx} (hreg : i.writtenReg = some r)
    (htr : i.isTransfer = true) (s : State) : ∃ p, exec i s = .next (s.link.setPc p) := by
  obtain ⟨dr, v, hdr, -⟩ | ⟨a, v, hnone, -⟩ | ⟨p, hnone, -⟩ | ⟨p, -, -, -, he⟩ | ⟨hundef, -⟩ := exec_shape i s
  · cases htr.symm.trans (isTransfer_eq_false_of_dataDest hdr)
  · cases hreg.symm.trans hnone
  · cases hreg.symm.trans hnone
  · exact ⟨p, he⟩
  · obtain rfl | rfl := (isDefined_eq_false_iff i).1 hundef <;> cases htr

/-- Settles O41: PC gets what R7 holds after the link, whatever the transfer's target is. -/
theorem jumpR7ReturnsToAfterTheLink : Obligations.JumpR7ReturnsToAfterTheLink := by
  intro i s hreg htr
  obtain ⟨p, ht⟩ := exec_of_linking_transfer hreg htr s
  obtain ⟨hpc, hx, hcond, hmem⟩ := jumpTo_spec (s.link.setPc p).advance 7
  exact ⟨_, _, ht, rfl, hpc.trans (link_readReg_link s), hcond, hx, hmem⟩

end Sys2Proof.Proofs.Exceptions
end


section
/-! The host interface of spec/70_reset_and_hazards.md: what a block copied to memory reads as, and from it load and
boot; the register file and memory read back by the host; the run loop, by its first result; several Machines. -/

namespace Sys2Proof.Proofs.HostInterface

open Sys2Proof.Machine Sys2Proof.Claims Sys2Proof.Laws Sys2Proof.Proofs.Accesses Sys2Proof.Proofs.Reset

/-! ### Load and boot -/

/-- Rule R163: an address reads as the block's Word at its distance from the block's start, and as before where
the block has none. A block no longer than the address space does not reach its own start again. -/
theorem read_writeBlock (m : Memory) (a b : Word) (vs : List Word) (h : vs.length ≤ 65536) :
    (m.writeBlock a vs).read b = vs[(b - a).toNat]?.getD (m.read b) := by
  induction vs generalizing m a with
  | nil => rfl
  | cons v vs ih =>
    rw [List.length_cons] at h
    rw [Memory.writeBlock, ih _ _ (by omega)]
    by_cases hba : b = a
    · subst hba
      have hend : vs.length ≤ (b - (b + 1)).toNat := by bv_omega
      rw [List.getElem?_eq_none hend]
      simp
    · have hnext : (b - a).toNat = (b - (a + 1)).toNat + 1 := by bv_omega
      rw [hnext, List.getElem?_cons_succ, read_write_ne m a b v hba]

section Block

variable {m : Memory} {a : Word} {vs : List Word} (hfits : a.toNat + vs.length ≤ 65536)

include hfits

theorem read_writeBlock_inside {i : Nat} (hi : i < vs.length) :
    (m.writeBlock a vs).read (BitVec.ofNat 16 (a.toNat + i)) = vs[i] := by
  have hdist : (BitVec.ofNat 16 (a.toNat + i) - a).toNat = i := by bv_omega
  rw [read_writeBlock _ _ _ _ (by omega), hdist, List.getElem?_eq_getElem hi, Option.getD_some]

theorem read_writeBlock_outside {b : Word} (hb : b.toNat < a.toNat ∨ a.toNat + vs.length ≤ b.toNat) :
    (m.writeBlock a vs).read b = m.read b := by
  have hdist : vs.length ≤ (b - a).toNat := by bv_omega
  rw [read_writeBlock _ _ _ _ (by omega), List.getElem?_eq_none hdist, Option.getD_none]

end Block

theorem loadFits_iff (block : List Word) (offset : Word) :
    loadFits block offset = true ↔ offset.toNat + block.length ≤ 65536 := decide_eq_true_iff

theorem load_of_fits {block : List Word} {offset : Word} (h : offset.toNat + block.length ≤ 65536) (s : State) :
    hostApply (.load block offset) s = (withMem s (s.mem.writeBlock offset block), .done) :=
  if_pos ((loadFits_iff block offset).2 h)

theorem load_of_not_fits {block : List Word} {offset : Word} (h : ¬ offset.toNat + block.length ≤ 65536)
    (s : State) : hostApply (.load block offset) s = (s, .outOfBoundsLoad) :=
  if_neg fun hl => h ((loadFits_iff block offset).1 hl)

/-- Settles O51: a load that is done replaces memory only, by memory with the block written. -/
theorem loadIsAllOrNothing : Obligations.LoadIsAllOrNothing := by
  intro block offset s
  split
  next hfits =>
    exact ⟨_, load_of_fits hfits s, ⟨rfl, rfl, rfl⟩, fun _ hi => read_writeBlock_inside hfits hi,
      fun _ ha => read_writeBlock_outside hfits ha⟩
  next hfits => exact load_of_not_fits hfits s

/-- The boot of one block without registers is its load and then the write of PC. -/
theorem boot_of_load {origin entry : Word} {block : List Word} {s t : State} {reply : HostReply}
    (h : hostApply (.load block origin) s = (t, reply)) :
    (hostScript (bootScript [(origin, block)] entry []) s).1 = t.setPc entry :=
  congrArg (fun r => r.1.setPc entry) h

/-- Settles O53: the boot's load is O51's, from reset, and writing PC changes nothing else. -/
theorem bootLeavesTheProgramAndTheEntryPoint : Obligations.BootLeavesTheProgramAndTheEntryPoint := by
  intro origin entry block hfits
  exact ⟨_, boot_of_load (load_of_fits hfits State.reset), rfl, rfl, readReg_reset,
    fun _ hi => read_writeBlock_inside hfits hi,
    fun a ha => (read_writeBlock_outside hfits ha).trans (memRead_reset a)⟩

/-! ### Reading back -/

theorem hostRegRead_of_readSlot {s : State} {r : Slot} {v : Word} (h : s.readSlot r = v) :
    hostApply (.regRead r) s = (s, .word v) := h ▸ rfl

theorem hostMemRead_of_memRead {s : State} {a v : Word} (h : s.memRead a = v) :
    hostApply (.memRead a) s = (s, .word v) := h ▸ rfl

@[simp] theorem writeSlot_memRead (s : State) (r : Slot) (v a : Word) :
    (s.writeSlot r v).memRead a = s.memRead a := congrArg (·.read a) (writeSlot_mem s r v)

@[simp] theorem memWrite_readSlot (s : State) (a v : Word) (r : Slot) :
    (s.memWrite a v).readSlot r = s.readSlot r := by
  cases r <;> rfl

/-- Settles O52: the read-after-write laws of the ten slots and of memory, each through the host's operations. -/
theorem hostReadsBackWhatItWrote : Obligations.HostReadsBackWhatItWrote :=
  ⟨fun s r v => ⟨s.writeSlot r v, rfl, hostRegRead_of_readSlot (writeSlot_readSlot_same s r v),
      fun q hq => hostRegRead_of_readSlot (writeSlot_readSlot_ne s r q v hq),
      fun a => hostMemRead_of_memRead (writeSlot_memRead s r v a)⟩,
    fun s a v => ⟨s.memWrite a v, rfl, hostMemRead_of_memRead (read_write_same s.mem a v),
      fun b hb => hostMemRead_of_memRead (read_write_ne s.mem a b v hb),
      fun q => hostRegRead_of_readSlot (memWrite_readSlot s a v q)⟩⟩

/-! ### The run loop -/

/-- A run that was stopped was stopped by its first step, or goes on as a stopped run after it. -/
theorem hostRun_some_cases {stop : StepResult → Bool} {n k : Nat} {s t : State} {r : StepResult}
    (h : hostRun stop (n + 1) s = (t, k, some r)) :
    (stop (hostStep s).2 = true ∧ t = (hostStep s).1 ∧ k = 1 ∧ r = (hostStep s).2) ∨
    (stop (hostStep s).2 = false ∧ ∃ k', k = k' + 1 ∧ hostRun stop n (hostStep s).1 = (t, k', some r)) := by
  simp only [hostRun] at h
  split at h
  next hstop =>
    cases h
    exact .inl ⟨hstop, rfl, rfl, rfl⟩
  next hstop =>
    obtain ⟨rfl, hk, hr⟩ : _ = t ∧ _ = k ∧ _ = some r := by simpa only [Prod.mk.injEq] using h
    exact .inr ⟨Bool.not_eq_true _ ▸ hstop, _, hk.symm, hr ▸ rfl⟩

/-- Settles O55, by induction on the budget: the result of step `j + 1` is that of step `j` of the run's rest. -/
theorem runEndsAtTheFirstResultThatStops : Obligations.RunEndsAtTheFirstResultThatStops := by
  intro stop budget
  induction budget with
  | zero =>
    intro s t k r h
    cases h
  | succ n ih =>
    intro s t k r h
    obtain ⟨hstop, rfl, rfl, rfl⟩ | ⟨hgo, k, rfl, hrest⟩ := hostRun_some_cases h
    · exact ⟨le_rfl, Nat.succ_pos n, rfl, rfl, hstop, fun j hj => absurd hj (by omega)⟩
    · obtain ⟨hpos, hle, ht, hr, hstop, hearlier⟩ := ih _ _ _ _ hrest
      obtain ⟨k, rfl⟩ := Nat.exists_eq_add_of_le' hpos
      refine ⟨by omega, by omega, ht, hr, hstop, fun j hj => ?_⟩
      cases j with
      | zero => exact hgo
      | succ j => exact hearlier j (Nat.lt_of_succ_lt_succ hj)

/-! ### Several Machines -/

/-- Settles O56, by the recursion of `machinesApply`: the first Machine is the one meant, or the rest holds it. -/
theorem machinesDoNotInteract : Obligations.MachinesDoNotInteract := by
  intro k op ms j
  induction ms generalizing k j with
  | nil => simp [machinesApply]
  | cons s ms ih =>
    cases k with
    | zero => cases j <;> simp [machinesApply]
    | succ k =>
      cases j with
      | zero => simp [machinesApply]
      | succ j => simpa [machinesApply] using ih k j

end Sys2Proof.Proofs.HostInterface
end
